-- ==== Sys2Proof/Word.lean ====
section
/-! DEFINITION. The word types of the engine (spec/00_scope.md R8, R10): a lane, the seed, the
length and a digest word have 64 bits, a message location is a byte, all unsigned. -/

namespace Sys2Proof

/-- A 64-bit unsigned value: a lane, the seed, the length, an offset, a digest word (R8). -/
abbrev Word := BitVec 64

/-- One location of the message space (R50). -/
abbrev Byte := BitVec 8

end Sys2Proof
end

