-- ==== Sys2Proof/Config.lean ====
section
/-! DEFINITION. What is fixed for the machine and is not state (spec/00_scope.md R9,
spec/10_state.md R28), and the values the spec leaves unspecified. -/

namespace Sys2Proof.Config

/-- The record of the engine's constants (R9): the six SecretConstants and the initial ring carry.
The named parameters of R8: `Sys2Proof.Machine.execWith`, `stepWith` and `coreWith` give the machine for any
values of this record, `exec`, `step` and `Sys2Proof.core` are it at the default values (log 8). -/
structure Consts where
  /-- `C[0]` -/
  c0 : Word
  /-- `C[1]` -/
  c1 : Word
  /-- `C[2]` -/
  c2 : Word
  /-- `C[3]` -/
  c3 : Word
  /-- `C[4]` -/
  c4 : Word
  /-- `C[5]` -/
  c5 : Word
  /-- `RING_INIT` -/
  ringInit : Word
deriving DecidableEq, Repr

/-- The default values of R28. PRESUMED (log 8): the spec marks them as not in its source. Unsafe. -/
def consts : Consts where
  c0 := 0x5AE31E589C56E17A#64
  c1 := 0x96D7BB04E64F6DA9#64
  c2 := 0x7AB1006B26F9EB64#64
  c3 := 0x21233394220B8457#64
  c4 := 0x047CB9557C9F3B43#64
  c5 := 0xD24F2590C0BCEE28#64
  ringInit := 0x33EA8F71BB6016D8#64

/-- A free 64-bit value for each number of `State.freeCount`: what a register holds while the spec
calls it unspecified (R150, R190, U3; log 5 and log 7). Nothing is known of it. Safe. -/
opaque freeWord : Nat → Word

/-- A free 2-bit value, for `OP` after the reset event (R190; log 7). Nothing is known of it. Safe. -/
opaque freeOp : Nat → BitVec 2

end Sys2Proof.Config
end

