-- ==== Sys2Proof/Syntax.lean ====
section
/-! DEFINITION. The instructions: one constructor per row of spec/opcode_table.json
(spec/30_encoding.md R79): four commands, thirteen phases, seven unit functions. -/

namespace Sys2Proof

/-- The three formats of the opcode table (R79). The format of a word is known from where the word
stands (the command registers, `PHASE`, the datapath), not from its bits (log 9). -/
inductive Format where
  /-- a command word `OP : SEED : LEN` (R70) -/
  | cmd
  /-- a phase code (R74) -/
  | phase
  /-- a unit tag with its operands (R75) -/
  | unit
deriving DecidableEq, Repr

/-- The thirteen phases of the sequencer (R74). -/
inductive Phase where
  | idle | short | epis64 | epis128 | init | blk96 | rclose | blk48 | blk24 | tail | layerf
  | epil64 | epil128
deriving DecidableEq, Repr

/-- The instructions of the engine. -/
inductive Instr where
  /-- HASH64, `OP = 00` (R153) -/
  | hash64 (seed len : Word)
  /-- HASH64F, `OP = 01` (R154) -/
  | hash64f (seed len : Word)
  /-- HASH128, `OP = 10` (R155) -/
  | hash128 (seed len : Word)
  /-- HASH128F, `OP = 11` (R156) -/
  | hash128f (seed len : Word)
  /-- IDLE, `PHASE = 0000` (R150, R151) -/
  | idle
  /-- SHORT, `PHASE = 0001` (R110) -/
  | short
  /-- EPIS64, `PHASE = 0010` (R111) -/
  | epis64
  /-- EPIS128, `PHASE = 0011` (R112) -/
  | epis128
  /-- INIT, `PHASE = 0100` (R120) -/
  | init
  /-- BLK96, `PHASE = 0101` (R121) -/
  | blk96
  /-- RCLOSE, `PHASE = 0110` (R122) -/
  | rclose
  /-- BLK48, `PHASE = 0111` (R123) -/
  | blk48
  /-- BLK24, `PHASE = 1000` (R124) -/
  | blk24
  /-- TAIL, `PHASE = 1001` (R125) -/
  | tail
  /-- LAYERF, `PHASE = 1010` (R140) -/
  | layerf
  /-- EPIL64, `PHASE = 1011` (R141) -/
  | epil64
  /-- EPIL128, `PHASE = 1100` (R142) -/
  | epil128
  /-- WMUL, tag `000` (R91) -/
  | wmul (a b : Word)
  /-- ROTL, tag `001` (R92) -/
  | rotl (v n : Word)
  /-- ROTR, tag `010` (R93) -/
  | rotr (v n : Word)
  /-- CHI, tag `011` (R94) -/
  | chi (t u v : Word)
  /-- RD32, tag `100` (R95) -/
  | rd32 (addr : Word)
  /-- RD64, tag `101` (R96) -/
  | rd64 (addr : Word)
  /-- RDSHORT, tag `110` (R97) -/
  | rdshort (base n : Word)
deriving DecidableEq, Repr

/-- The row a phase of the sequencer is. -/
def Phase.instr : Phase → Instr
  | .idle => .idle
  | .short => .short
  | .epis64 => .epis64
  | .epis128 => .epis128
  | .init => .init
  | .blk96 => .blk96
  | .rclose => .rclose
  | .blk48 => .blk48
  | .blk24 => .blk24
  | .tail => .tail
  | .layerf => .layerf
  | .epil64 => .epil64
  | .epil128 => .epil128

end Sys2Proof
end

