-- ==== Sys2Proof/WellFormed.lean ====
section
/-! DEFINITION. Which terms of `Instr` are instructions. Every value of `SEED` and `LEN` is legal
(spec/30_encoding.md R73) and phases have no operands (R74); the one bounded operand is the byte
count of RDSHORT (spec/40_primitives.md R97). -/

namespace Sys2Proof

/-- The byte count of RDSHORT lies in `0 .. 16` (R97). -/
def Instr.countOk (n : Word) : Bool := decide (n.toNat ≤ 16)

/-- The well-formed instructions. -/
def Instr.wf : Instr → Bool
  | .hash64 _ _ => true
  | .hash64f _ _ => true
  | .hash128 _ _ => true
  | .hash128f _ _ => true
  | .idle => true
  | .short => true
  | .epis64 => true
  | .epis128 => true
  | .init => true
  | .blk96 => true
  | .rclose => true
  | .blk48 => true
  | .blk24 => true
  | .tail => true
  | .layerf => true
  | .epil64 => true
  | .epil128 => true
  | .wmul _ _ => true
  | .rotl _ _ => true
  | .rotr _ _ => true
  | .chi _ _ _ => true
  | .rd32 _ => true
  | .rd64 _ => true
  | .rdshort _ n => Instr.countOk n

end Sys2Proof
end

