-- ==== Sys2Proof/Decode.lean ====
section
/-! DEFINITION. The decoder, total on any bytes and rejecting by name, and the encoder
(spec/30_encoding.md R70 to R76). The codes are the spec's; the layout of a word in bytes and the
operand words of the unit functions are the model's (DESIGN CHOICE, log 9). -/

namespace Sys2Proof

/-- The number that bytes stand for, the first byte least significant (R51). -/
def leNat : List Byte → Nat
  | [] => 0
  | b :: bs => b.toNat + 256 * leNat bs

/-- The first `n` bytes of a number, least significant byte first (R51, R78). -/
def leBytes : Nat → Nat → List Byte
  | 0, _ => []
  | n + 1, w => BitVec.ofNat 8 w :: leBytes n (w / 256)

/-- Why bytes are no instruction. -/
inductive Reject where
  /-- the packet has not the length of its format -/
  | wrongLength (f : Format)
  /-- a bit that belongs to no field is 1 -/
  | padding
  /-- a phase code that names no phase: `1101`, `1110`, `1111` (R73, U5) -/
  | reservedPhase (code : BitVec 4)
  /-- unit tag `111`, which names no unit function (R73) -/
  | reservedTag
  /-- a byte count of RDSHORT above 16 (R97) -/
  | badCount (n : Word)
deriving DecidableEq, Repr

/-- How many bytes a packet of a format has: 130 bits in 17 bytes, 4 bits in one byte, a tag byte
and three operand words (log 9). -/
def Format.size : Format → Nat
  | .cmd => 17
  | .phase => 1
  | .unit => 25

/-- The phase codes (R74). -/
def Phase.code : Phase → BitVec 4
  | .idle => 0b0000#4
  | .short => 0b0001#4
  | .epis64 => 0b0010#4
  | .epis128 => 0b0011#4
  | .init => 0b0100#4
  | .blk96 => 0b0101#4
  | .rclose => 0b0110#4
  | .blk48 => 0b0111#4
  | .blk24 => 0b1000#4
  | .tail => 0b1001#4
  | .layerf => 0b1010#4
  | .epil64 => 0b1011#4
  | .epil128 => 0b1100#4

/-- The phase a code names; the last three codes name none (R73, R74). -/
def Phase.ofCode (c : BitVec 4) : Option Phase :=
  match c.toNat with
  | 0 => some .idle
  | 1 => some .short
  | 2 => some .epis64
  | 3 => some .epis128
  | 4 => some .init
  | 5 => some .blk96
  | 6 => some .rclose
  | 7 => some .blk48
  | 8 => some .blk24
  | 9 => some .tail
  | 10 => some .layerf
  | 11 => some .epil64
  | 12 => some .epil128
  | _ => none

/-- A command word: `LEN` in bits 63:0, `SEED` in bits 127:64, `OP` in bits 129:128 (R70, R71). -/
def decodeCmdWord (w : Nat) : Except Reject Instr :=
  let len := BitVec.ofNat 64 w
  let seed := BitVec.ofNat 64 (w / 2 ^ 64)
  match w / 2 ^ 128 with
  | 0 => .ok (.hash64 seed len)
  | 1 => .ok (.hash64f seed len)
  | 2 => .ok (.hash128 seed len)
  | 3 => .ok (.hash128f seed len)
  | _ => .error .padding

/-- A phase code in the low four bits (R74). -/
def decodePhaseWord (w : Nat) : Except Reject Instr :=
  if w < 16 then
    match Phase.ofCode (BitVec.ofNat 4 w) with
    | some p => .ok p.instr
    | none => .error (.reservedPhase (BitVec.ofNat 4 w))
  else .error .padding

/-- `i` where the operand words it does not use are zero. -/
def noOperand (unused : List Word) (i : Instr) : Except Reject Instr :=
  if unused.all (· == 0#64) then .ok i else .error .padding

/-- A unit function: the tag of R75 in bits 2:0, operand words at bits 71:8, 135:72 and 199:136. -/
def decodeUnitWord (w : Nat) : Except Reject Instr :=
  let x := BitVec.ofNat 64 (w / 2 ^ 8)
  let y := BitVec.ofNat 64 (w / 2 ^ 72)
  let z := BitVec.ofNat 64 (w / 2 ^ 136)
  match w % 256 with
  | 0 => noOperand [z] (.wmul x y)
  | 1 => noOperand [z] (.rotl x y)
  | 2 => noOperand [z] (.rotr x y)
  | 3 => noOperand [] (.chi x y z)
  | 4 => noOperand [y, z] (.rd32 x)
  | 5 => noOperand [y, z] (.rd64 x)
  | 6 => if Instr.countOk y then noOperand [z] (.rdshort x y) else .error (.badCount y)
  | 7 => .error .reservedTag
  | _ => .error .padding

/-- The decoder: the instruction that the bytes of a packet of format `f` stand for. -/
def decode (f : Format) (bs : List Byte) : Except Reject Instr :=
  if bs.length = f.size then
    match f with
    | .cmd => decodeCmdWord (leNat bs)
    | .phase => decodePhaseWord (leNat bs)
    | .unit => decodeUnitWord (leNat bs)
  else .error (.wrongLength f)

/-- An instruction's bytes with their format. -/
structure Packet where
  format : Format
  bytes : List Byte
deriving DecidableEq, Repr

/-- The packet that holds the number `w`. -/
def packet (f : Format) (w : Nat) : Packet := ⟨f, leBytes f.size w⟩

/-- A command word from its fields (R70). -/
def cmdWord (op : Nat) (seed len : Word) : Nat :=
  len.toNat + 2 ^ 64 * seed.toNat + 2 ^ 128 * op

/-- A unit word from its tag (R75) and operand words. -/
def unitWord (tag : Nat) (x y z : Word) : Nat :=
  tag + 2 ^ 8 * x.toNat + 2 ^ 72 * y.toNat + 2 ^ 136 * z.toNat

/-- A phase's packet (R74). -/
def phasePacket (p : Phase) : Packet := packet .phase p.code.toNat

/-- The encoder, from the same tables (R70, R71, R74, R75). -/
def encode : Instr → Packet
  | .hash64 seed len => packet .cmd (cmdWord 0b00 seed len)
  | .hash64f seed len => packet .cmd (cmdWord 0b01 seed len)
  | .hash128 seed len => packet .cmd (cmdWord 0b10 seed len)
  | .hash128f seed len => packet .cmd (cmdWord 0b11 seed len)
  | .idle => phasePacket .idle
  | .short => phasePacket .short
  | .epis64 => phasePacket .epis64
  | .epis128 => phasePacket .epis128
  | .init => phasePacket .init
  | .blk96 => phasePacket .blk96
  | .rclose => phasePacket .rclose
  | .blk48 => phasePacket .blk48
  | .blk24 => phasePacket .blk24
  | .tail => phasePacket .tail
  | .layerf => phasePacket .layerf
  | .epil64 => phasePacket .epil64
  | .epil128 => phasePacket .epil128
  | .wmul a b => packet .unit (unitWord 0b000 a b 0)
  | .rotl v n => packet .unit (unitWord 0b001 v n 0)
  | .rotr v n => packet .unit (unitWord 0b010 v n 0)
  | .chi t u v => packet .unit (unitWord 0b011 t u v)
  | .rd32 addr => packet .unit (unitWord 0b100 addr 0 0)
  | .rd64 addr => packet .unit (unitWord 0b101 addr 0 0)
  | .rdshort base n => packet .unit (unitWord 0b110 base n 0)

/-- The format of a table row by its width: a unit tag has 3 bits, a phase code 4, a command word
130 (R79). A row padded to one byte is read as a phase code, since a tag and a code cannot be told
apart there (log 9). More bits than a command word has are a unit packet with its operand words. -/
def formatOfBits (nbits : Nat) : Format :=
  if nbits ≤ 3 then .unit else if nbits ≤ 8 then .phase else if nbits ≤ 136 then .cmd else .unit

/-- The packet of a table word; the bits above the word are zero. -/
def tablePacket (nbits w : Nat) : Packet := packet (formatOfBits nbits) w

/-- The instruction the decoder reads from a table word. -/
def decodeTableWord (nbits w : Nat) : Option Instr :=
  if w < 256 ^ (formatOfBits nbits).size then
    match decode (tablePacket nbits w).format (tablePacket nbits w).bytes with
    | .ok i => some i
    | .error _ => none
  else none

end Sys2Proof
end

