-- ==== Sys2Proof/Machine/State.lean ====
section
/-! DEFINITION. The state of the engine (spec/10_state.md R20 to R33), the reasons a step can stop,
and the state after reset. -/

namespace Sys2Proof.Machine

/-- Why the run stops with a fault (spec/60_exceptions.md R170: the one entry). -/
inductive Fault where
  /-- `MsgFault(a)`, code 1: the message byte at offset `a` is not readable (R171). Raised by the
  readers in SHORT, BLK96, BLK48, BLK24, TAIL, by the commands that run these, and by RD32, RD64,
  RDSHORT alone. Safe: the model stops where the behaviour of the hardware is undefined. -/
  | msgFault (a : Nat)
deriving DecidableEq, Repr

/-- Why a scenario is refused. -/
inductive Refusal where
  /-- an instruction without a meaning; no arm answers it. Safe. -/
  | notModelled (mnemonic : String)
  /-- START, or a command, while `BUSY = 1` (R192, U4): raised by IDLE with START and by the four
  commands. Safe: a violated precondition. -/
  | startWhileBusy
  /-- the host changes a byte of `0 .. LEN-1` while `BUSY = 1` (R193, U6): raised by the host's
  placing of bytes. Safe: a violated precondition. -/
  | messageChanged
  /-- `PHASE` holds a code that names no phase (R73, U5): raised by the fetch, by START, by the four
  commands and by the host's placing of bytes. Safe: no rule writes one. -/
  | reservedPhase (code : BitVec 4)
  /-- a presented packet is no encoding (R73): raised by the fetch. Safe. -/
  | undecodable (r : Reject)
deriving DecidableEq, Repr

/-- The six lanes `S[0] .. S[5]` of the long path (R21). -/
structure Lanes where
  /-- `S[0]` -/
  s0 : Word
  /-- `S[1]` -/
  s1 : Word
  /-- `S[2]` -/
  s2 : Word
  /-- `S[3]` -/
  s3 : Word
  /-- `S[4]` -/
  s4 : Word
  /-- `S[5]` -/
  s5 : Word
deriving DecidableEq, Repr

/-- The number of a lane. -/
inductive Lane where
  | l0 | l1 | l2 | l3 | l4 | l5
deriving DecidableEq, Repr

/-- A command as the host presents it: the three operand registers (R26, R70). -/
structure Command where
  op : BitVec 2
  seed : Word
  len : Word
deriving DecidableEq, Repr

/-- What the host does at this step; the model's own input (log 3). It has no way to invoke a unit
function (R75). -/
inductive Request where
  /-- nothing: the sequencer takes its phase -/
  | none
  /-- START with a command (R150), at the phase grain -/
  | start (c : Command)
  /-- the reset event (R190) -/
  | reset
  /-- message bytes placed at consecutive offsets from `base` (R161, R193) -/
  | place (base : Nat) (bytes : List Byte)
  /-- a command word called as one transaction, at the command grain (R7, R153; log 1) -/
  | call (packet : List Byte)
deriving DecidableEq, Repr

/-- The result of a unit function applied alone on the bench (log 4). -/
inductive UnitOut where
  | none
  /-- ROTL, ROTR, RD32, RD64 -/
  | word (v : Word)
  /-- WMUL, RDSHORT -/
  | pair (a b : Word)
  /-- CHI -/
  | triple (a b c : Word)
deriving DecidableEq, Repr

/-- The message space: the bytes it holds, by rising offset (R50). An offset not listed is a byte
the memory does not hold (R56; log 11). -/
abbrev Mem := List Host.Cell

/-- The state of the engine: the registers of R20 to R27 and nothing else. The message, the halves of a
multiply and every other local value, the mode and the constants are no part of it (R29, R30). -/
structure Engine where
  /-- `S[0..5]` (R21) -/
  lanes : Lanes
  /-- `I` (R22) -/
  laneI : Word
  /-- `J` (R22) -/
  laneJ : Word
  /-- `K` (R22) -/
  laneK : Word
  /-- `RING` (R23) -/
  ring : Word
  /-- `PHASE`, 4 bits (R24; log 10) -/
  phase : BitVec 4
  /-- `P` (R25) -/
  p : Word
  /-- `Q` (R25) -/
  q : Word
  /-- `OP`, 2 bits (R26) -/
  op : BitVec 2
  /-- `SEED` (R26) -/
  seed : Word
  /-- `LEN` (R26) -/
  len : Word
  /-- `DIGEST0` (R27) -/
  digest0 : Word
  /-- `DIGEST1` (R27) -/
  digest1 : Word
  /-- `DVALID` (R27) -/
  dvalid : Bool
  /-- `BUSY` (R27) -/
  busy : Bool
deriving DecidableEq, Repr

/-- What comes to the engine from outside, beside its state (R29, R161; log 2). -/
structure Inputs where
  /-- MSG (R29, R50; log 2) -/
  msg : Mem
  /-- the host's event at this step (log 3) -/
  request : Request
deriving DecidableEq, Repr

/-- The model's own fields: a bench on which one unit function of the datapath is applied alone, since
the opcode table has a row for each (log 4), and the counter of free values (log 5). Neither the engine
nor the host has them (R30, R75). -/
structure Bench where
  /-- a unit function waiting to be applied; no event of the host and no phase puts one here (log 4) -/
  unitIn : Option (List Byte)
  /-- the result of the unit function applied last; no instruction reads it (log 4) -/
  unitOut : UnitOut
  /-- how many free values are used up (log 5) -/
  freeCount : Nat
deriving DecidableEq, Repr

/-- What a step is a function of: the engine's state, its inputs and the model's bench. -/
structure State extends Engine, Inputs, Bench
deriving DecidableEq, Repr

/-- The outcome of a step. -/
abbrev Result := Host.Outcome State Fault Refusal

/-- The state after reset: `PHASE = IDLE`, `BUSY = 0`, `DVALID = 0` (R33, R190). The spec gives no
other register a value: DESIGN CHOICE zero, unsafe (log 6). -/
def State.reset : State where
  lanes := ⟨0, 0, 0, 0, 0, 0⟩
  laneI := 0
  laneJ := 0
  laneK := 0
  ring := 0
  phase := Phase.idle.code
  p := 0
  q := 0
  op := 0
  seed := 0
  len := 0
  digest0 := 0
  digest1 := 0
  dvalid := false
  busy := false
  msg := []
  request := .none
  unitIn := none
  unitOut := .none
  freeCount := 0

end Sys2Proof.Machine
end

