-- ==== Sys2Proof/Machine/Ops.lean ====
section
/-! DEFINITION. The named operations over the message space and the registers
(spec/20_memory.md, spec/10_state.md), raising the one fault (spec/60_exceptions.md R171, R174) and
the reset event (spec/70_reset_and_hazards.md R190). -/

namespace Sys2Proof.Machine

/-! ### The message space -/

/-- The byte at an offset, if the memory holds it (R50, R56). -/
def Mem.byte? : Mem → Nat → Option Byte
  | [], _ => none
  | (k, b) :: m, a => if k = a then some b else Mem.byte? m a

/-- Whether the memory holds a byte at an offset. -/
def Mem.has (m : Mem) (a : Nat) : Bool := (m.byte? a).isSome

/-- Put a byte at its place in the rising list. -/
def Mem.insert (a : Nat) (b : Byte) : Mem → Mem
  | [] => [(a, b)]
  | (k, c) :: m =>
    if a < k then (a, b) :: (k, c) :: m
    else if a = k then (a, b) :: m
    else (k, c) :: Mem.insert a b m

/-- The host writes one byte; offsets are of 64 bits (R50), there is no other place to write. -/
def Mem.write (m : Mem) (a : Nat) (b : Byte) : Mem :=
  if a < 2 ^ 64 then Mem.insert a b m else m

/-- The host writes bytes at consecutive offsets. -/
def Mem.writes : Mem → Nat → List Byte → Mem
  | m, _, [] => m
  | m, a, b :: bs => Mem.writes (m.write a b) (a + 1) bs

/-- Every offset listed is above `lo` and below the next, and is an offset of 64 bits. -/
def Mem.rising : Nat → Mem → Bool
  | _, [] => true
  | lo, (k, _) :: m => decide (lo ≤ k) && decide (k < 2 ^ 64) && Mem.rising (k + 1) m

/-- The canonical form: offsets strictly rising, all of 64 bits. An unlisted offset reads as "not
held", which no entry can say. -/
def Mem.wf (m : Mem) : Bool := Mem.rising 0 m

/-- The bytes at offsets `a .. a+n-1`, or `MsgFault` at the lowest one not held (R56, R171). -/
def readBytes (m : Mem) : Nat → Nat → Except Fault (List Byte)
  | _, 0 => .ok []
  | a, n + 1 =>
    match m.byte? a with
    | none => .error (.msgFault a)
    | some b =>
      match readBytes m (a + 1) n with
      | .ok bs => .ok (b :: bs)
      | .error e => .error e

/-- `MemRead(addr, n)`: the `n` bytes from `addr` as one little-endian number (R12, R52). -/
def memRead (m : Mem) (addr n : Nat) : Except Fault Nat :=
  match readBytes m addr n with
  | .ok bs => .ok (leNat bs)
  | .error e => .error e

/-! ### Stopping and going on -/

/-- Raising the fault (R171, R174): nothing is saved, no mode is entered, there is no handler and no
return (R175); the run stops. -/
def raise (e : Fault) : Result := .fault e

/-- Go on with what a read gives, or raise its fault. -/
def onRead {α : Type} (r : Except Fault α) (f : α → Result) : Result :=
  match r with
  | .ok v => f v
  | .error e => raise e

/-- One step after another: the second runs only if the first answers a next state. -/
def andThen (r : Result) (f : State → Result) : Result :=
  match r with
  | .next s => f s
  | .fault e => .fault e
  | .refused e => .refused e

/-- `n` times the same step. -/
def times (f : State → Result) : Nat → State → Result
  | 0, s => .next s
  | n + 1, s => andThen (f s) (times f n)

/-! ### Registers -/

/-- `S[a]` (R12). -/
def Lanes.get (l : Lanes) : Lane → Word
  | .l0 => l.s0
  | .l1 => l.s1
  | .l2 => l.s2
  | .l3 => l.s3
  | .l4 => l.s4
  | .l5 => l.s5

/-- `S[a] <- v` (R12). -/
def Lanes.set (l : Lanes) (a : Lane) (v : Word) : Lanes :=
  match a with
  | .l0 => { l with s0 := v }
  | .l1 => { l with s1 := v }
  | .l2 => { l with s2 := v }
  | .l3 => { l with s3 := v }
  | .l4 => { l with s4 := v }
  | .l5 => { l with s5 := v }

/-- `S[a] <- S[a] ^ v`. -/
def Lanes.xor (l : Lanes) (a : Lane) (v : Word) : Lanes := l.set a (l.get a ^^^ v)

/-- `PHASE <- X` (R12, R24): only the codes of the thirteen phases are ever written (R73). -/
def State.setPhase (s : State) (x : Phase) : State := { s with phase := x.code }

/-- The host's event of this step is done with (log 3). -/
def State.retire (s : State) : State := { s with request := .none }

/-- The result of a unit function applied alone; it empties the bench's slot (log 4). -/
def State.setUnitOut (s : State) (u : UnitOut) : State := { s with unitOut := u, unitIn := none }

/-- `r`, but a state whose `PHASE` names no phase is refused (R73, U5; log 10). -/
def namedPhase (s : State) (r : Result) : Result :=
  match Phase.ofCode s.phase with
  | some _ => r
  | none => .refused (.reservedPhase s.phase)

/-- `DIGEST0` and `DIGEST1` become unspecified (R150, U3): two free values (log 5). -/
def State.loseDigest (s : State) : State :=
  { s with
    digest0 := Config.freeWord s.freeCount
    digest1 := Config.freeWord (s.freeCount + 1)
    freeCount := s.freeCount + 2 }

/-- The reset event (R190): the three control registers take their values, every other register
becomes unspecified (free values, log 7), the message is untouched. -/
def State.resetEvent (s : State) : State :=
  { s with
    phase := Phase.idle.code
    busy := false
    dvalid := false
    lanes :=
      { s0 := Config.freeWord s.freeCount
        s1 := Config.freeWord (s.freeCount + 1)
        s2 := Config.freeWord (s.freeCount + 2)
        s3 := Config.freeWord (s.freeCount + 3)
        s4 := Config.freeWord (s.freeCount + 4)
        s5 := Config.freeWord (s.freeCount + 5) }
    laneI := Config.freeWord (s.freeCount + 6)
    laneJ := Config.freeWord (s.freeCount + 7)
    laneK := Config.freeWord (s.freeCount + 8)
    ring := Config.freeWord (s.freeCount + 9)
    p := Config.freeWord (s.freeCount + 10)
    q := Config.freeWord (s.freeCount + 11)
    seed := Config.freeWord (s.freeCount + 12)
    len := Config.freeWord (s.freeCount + 13)
    digest0 := Config.freeWord (s.freeCount + 14)
    digest1 := Config.freeWord (s.freeCount + 15)
    op := Config.freeOp (s.freeCount + 16)
    freeCount := s.freeCount + 17
    request := .none }

end Sys2Proof.Machine
end

