-- ==== Sys2Proof/Machine/Operands.lean ====
section
/-! DEFINITION. The seven unit functions of the datapath and the readers of the message
(spec/40_primitives.md R90 to R99), and the fields of `OP` (spec/30_encoding.md R71). -/

namespace Sys2Proof.Machine

/-- `FAST` is `OP[0]` (R12, R71): 0 standard, 1 fast. -/
def fastOf (op : BitVec 2) : Bool := op.getLsbD 0

/-- `W128` is `OP[1]` (R12, R71): 0 for a 64-bit digest, 1 for a 128-bit digest. -/
def wideOf (op : BitVec 2) : Bool := op.getLsbD 1

/-- WMUL: the exact product of two unsigned words, low and high half (R91). -/
def wmul (a b : Word) : Word × Word :=
  (BitVec.ofNat 64 (a.toNat * b.toNat), BitVec.ofNat 64 (a.toNat * b.toNat / 2 ^ 64))

/-- ROTL: rotation to the left by `n mod 64`; by 0 it is the identity, not a shift by 64 (R92). -/
def rotl (v : Word) (n : Nat) : Word :=
  if n % 64 = 0 then v else (v <<< (n % 64)) ||| (v >>> (64 - n % 64))

/-- ROTR: rotation to the right by `n mod 64` (R93). -/
def rotr (v : Word) (n : Nat) : Word :=
  if n % 64 = 0 then v else (v >>> (n % 64)) ||| (v <<< (64 - n % 64))

/-- CHI: the XOR-AND combiner, all three results from the operands as they were (R94). -/
def chi (t u v : Word) : Word × Word × Word :=
  (t ^^^ (~~~u &&& v), u ^^^ (~~~v &&& t), v ^^^ (~~~t &&& u))

/-- RD32: four message bytes, widened with zeros (R95). Offsets are unbounded (R98). -/
def rd32 (m : Mem) (addr : Nat) : Except Fault Word :=
  match memRead m addr 4 with
  | .ok v => .ok (BitVec.ofNat 64 v)
  | .error e => .error e

/-- RD64: eight message bytes (R96). -/
def rd64 (m : Mem) (addr : Nat) : Except Fault Word :=
  match memRead m addr 8 with
  | .ok v => .ok (BitVec.ofNat 64 v)
  | .error e => .error e

/-- `MemRead(addr, 1)` as a word, used inside RDSHORT (R97). -/
def rd8 (m : Mem) (addr : Nat) : Except Fault Word :=
  match memRead m addr 1 with
  | .ok v => .ok (BitVec.ofNat 64 v)
  | .error e => .error e

/-- The second offset of RDSHORT: 4 for eight bytes and more, else 0 (R97, C8). -/
def shortOff (n : Nat) : Nat := if n ≥ 8 then 4 else 0

/-- RDSHORT: 0 to 16 bytes packed into two words; the reads in the order of R64 (R97). -/
def rdshort (m : Mem) (base n : Nat) : Except Fault (Word × Word) :=
  if n ≥ 4 then do
    let iHigh ← rd32 m base
    let iLow ← rd32 m (base + n - 4)
    let jHigh ← rd32 m (base + shortOff n)
    let jLow ← rd32 m (base + n - 4 - shortOff n)
    return ((iHigh <<< 32) ||| iLow, (jHigh <<< 32) ||| jLow)
  else if n ≥ 1 then do
    let b0 ← rd8 m base
    let b1 ← rd8 m (base + n / 2)
    let b2 ← rd8 m (base + n - 1)
    return ((b0 <<< 48) ||| (b1 <<< 24) ||| b2, 0)
  else return (0, 0)

end Sys2Proof.Machine
end

