-- ==== Sys2Proof/Machine/Flags.lean ====
section
/-! DEFINITION. The engine's two flags and the sequencing (spec/10_state.md R27,
spec/44_dispatcher.md R151, R152, R157). No operation sets a condition code (R27). -/

namespace Sys2Proof.Machine

/-- The flags at START: `DVALID <- 0`, `BUSY <- 1` (R150). -/
def State.flagsAtStart (s : State) : State := { s with dvalid := false, busy := true }

/-- The end of a command, in its last phase: `DVALID <- 1`, `BUSY <- 0`, `PHASE <- IDLE` (R157). -/
def State.complete (s : State) : State :=
  { s with dvalid := true, busy := false, phase := Phase.idle.code }

/-- Path selection at START: the short path if and only if `LEN <= 16` (R151). -/
def startPhase (len : Word) : Phase := if len.toNat ≤ 16 then .short else .init

/-- After SHORT, by `W128` (R152). -/
def afterShort (op : BitVec 2) : Phase := if wideOf op then .epis128 else .epis64

/-- After INIT, by `LEN` (R152). -/
def afterInit (len : Word) : Phase := if len.toNat ≥ 96 then .blk96 else .blk48

/-- After BLK96, by the new `Q` (R152). -/
def afterBlk96 (q : Word) : Phase := if q.toNat ≥ 96 then .blk96 else .rclose

/-- After LAYERF, by `W128` (R152). -/
def afterLayerf (op : BitVec 2) : Phase := if wideOf op then .epil128 else .epil64

end Sys2Proof.Machine
end

