-- ==== Sys2Proof/Machine/Final.lean ====
section
/-! DEFINITION. The finalization mix and the long epilogues: LAYERF, EPIL64, EPIL128
(spec/43_finalization.md R140 to R143). -/

namespace Sys2Proof.Machine

/-- The six halves of the three multiplies of a ring round. -/
structure Halves where
  lo0 : Word
  hi0 : Word
  lo1 : Word
  hi1 : Word
  lo2 : Word
  hi2 : Word
deriving DecidableEq, Repr

/-- The three multiplies of a ring round, `(i, j)`, `(j, k)`, `(k, i)`: in standard mode a salt goes
into the first operand of each, in fast mode there is none (R140, R141). -/
def ringHalves (fast : Bool) (x y z : Word) (i j k : Word) : Halves :=
  let p0 := wmul (if fast then i else i ^^^ x) j
  let p1 := wmul (if fast then j else j ^^^ y) k
  let p2 := wmul (if fast then k else k ^^^ z) i
  { lo0 := p0.1, hi0 := p0.2, lo1 := p1.1, hi1 := p1.2, lo2 := p2.1, hi2 := p2.2 }

/-- A value onto a lane: accumulated by XOR in standard mode, overwriting in fast mode (R15: fold). -/
def foldLane (fast : Bool) (old new : Word) : Word := if fast then new else old ^^^ new

/-- The ring round of LAYERF and EPIL64: each lane takes the low half of the multiply it is first
operand of and the high half of the one it is second operand of (R140). -/
def ringRound (fast : Bool) (x y z : Word) (i j k : Word) : Word × Word × Word :=
  let h := ringHalves fast x y z i j k
  (foldLane fast i (h.lo0 ^^^ h.hi2), foldLane fast j (h.lo1 ^^^ h.hi0),
    foldLane fast k (h.lo2 ^^^ h.hi1))

/-- LAYERF on the lanes: CHI, rotate by `LEN mod 64`, XOR the whole `LEN`, ring round with
`C[3]`, `C[4]`, `C[5]` (R140). -/
def layerfMix (c : Config.Consts) (fast : Bool) (len : Word) (i j k : Word) : Word × Word × Word :=
  let (i, j, k) := chi i j k
  ringRound fast c.c3 c.c4 c.c5 (rotl i (len.toNat % 64)) (rotr j (len.toNat % 64)) (k ^^^ len)

/-- EPIL64 on the lanes: ring round with `C[0]`, `C[1]`, `C[2]`, then the wrapping sum (R141). -/
def epil64Mix (c : Config.Consts) (fast : Bool) (i j k : Word) : Word :=
  let (i', j', k') := ringRound fast c.c0 c.c1 c.c2 i j k
  i' + j' + k'

/-- EPIL128 on the lanes: the multiplies of EPIL64, recombined (R142, C4). -/
def epil128Mix (c : Config.Consts) (fast : Bool) (i j k : Word) : Word × Word :=
  let h := ringHalves fast c.c0 c.c1 c.c2 i j k
  (foldLane fast i (h.lo0 ^^^ h.lo1 ^^^ h.hi2), foldLane fast j (h.hi0 ^^^ h.hi1 ^^^ h.lo2))

/-- LAYERF, for any constants (R140). -/
def layerfWith (c : Config.Consts) (s : State) : Result :=
  let (i, j, k) := layerfMix c (fastOf s.op) s.len s.laneI s.laneJ s.laneK
  .next ({ s with laneI := i, laneJ := j, laneK := k }.setPhase (afterLayerf s.op))

/-- EPIL64, for any constants (R141); `DIGEST1` is not written. -/
def epil64With (c : Config.Consts) (s : State) : Result :=
  .next ({ s with
    digest0 := epil64Mix c (fastOf s.op) s.laneI s.laneJ s.laneK }.complete)

/-- EPIL128, for any constants (R142). -/
def epil128With (c : Config.Consts) (s : State) : Result :=
  let (d0, d1) := epil128Mix c (fastOf s.op) s.laneI s.laneJ s.laneK
  .next ({ s with digest0 := d0, digest1 := d1 }.complete)

/-- LAYERF (R140). -/
def execLayerf (s : State) : Result := layerfWith Config.consts s

/-- EPIL64 (R141). -/
def execEpil64 (s : State) : Result := epil64With Config.consts s

/-- EPIL128 (R142). -/
def execEpil128 (s : State) : Result := epil128With Config.consts s

end Sys2Proof.Machine
end

