-- ==== Sys2Proof/Machine/ShortPath.lean ====
section
/-! DEFINITION. The short path, lengths 0 to 16: SHORT, EPIS64, EPIS128
(spec/41_short_path.md R110 to R113). -/

namespace Sys2Proof.Machine

/-- The lanes `I`, `J` that SHORT writes, from the two words read (R110). -/
def shortMix (c : Config.Consts) (seed len : Word) (i0 j0 : Word) : Word × Word :=
  let (lo, hi) := wmul (seed ^^^ c.c0) (len ^^^ c.c1)
  (i0 ^^^ lo ^^^ len, j0 ^^^ hi ^^^ seed)

/-- The 64-bit epilogue of the short path; it reads no mode (R111, C2, C5). -/
def epis64Mix (c : Config.Consts) (i j : Word) : Word :=
  let i1 := i ^^^ c.c2
  let j1 := j ^^^ c.c3
  let (lo1, hi1) := wmul i1 j1
  let i2 := i1 ^^^ lo1 ^^^ c.c4
  let j2 := j1 ^^^ hi1 ^^^ c.c5
  let (lo2, hi2) := wmul i2 j2
  i2 ^^^ j2 ^^^ lo2 ^^^ hi2

/-- One round of the 128-bit epilogue of the short path: both multiplies from the lanes before the
round, accumulated in standard mode, overwritten in fast mode (R112, C3). -/
def epis128Round (fast : Bool) (ca cb : Word) (i j : Word) : Word × Word :=
  if fast then
    let (lo0, hi0) := wmul i j
    let (lo1, hi1) := wmul (i ^^^ ca) (j ^^^ cb)
    (lo0 ^^^ hi1, lo1 ^^^ hi0)
  else
    let (lo0, hi0) := wmul (i ^^^ ca) j
    let (lo1, hi1) := wmul i (j ^^^ cb)
    (i ^^^ lo0 ^^^ hi1, j ^^^ lo1 ^^^ hi0)

/-- The 128-bit epilogue of the short path: the constants `C[2], C[3]`, then `C[4], C[5]` (R112). -/
def epis128Mix (c : Config.Consts) (fast : Bool) (i j : Word) : Word × Word :=
  let (i1, j1) := epis128Round fast c.c2 c.c3 i j
  epis128Round fast c.c4 c.c5 i1 j1

/-- SHORT, for any constants (R110). -/
def shortWith (k : Config.Consts) (s : State) : Result :=
  onRead (rdshort s.msg 0 s.len.toNat) fun (i0, j0) =>
    let (i, j) := shortMix k s.seed s.len i0 j0
    .next ({ s with laneI := i, laneJ := j }.setPhase (afterShort s.op))

/-- EPIS64, for any constants (R111); `DIGEST1` is not written. -/
def epis64With (k : Config.Consts) (s : State) : Result :=
  .next ({ s with digest0 := epis64Mix k s.laneI s.laneJ }.complete)

/-- EPIS128, for any constants (R112). -/
def epis128With (k : Config.Consts) (s : State) : Result :=
  let (d0, d1) := epis128Mix k (fastOf s.op) s.laneI s.laneJ
  .next ({ s with digest0 := d0, digest1 := d1 }.complete)

/-- SHORT (R110). -/
def execShort (s : State) : Result := shortWith Config.consts s

/-- EPIS64 (R111). -/
def execEpis64 (s : State) : Result := epis64With Config.consts s

/-- EPIS128 (R112). -/
def execEpis128 (s : State) : Result := epis128With Config.consts s

end Sys2Proof.Machine
end

