-- ==== Sys2Proof/Machine/Tower.lean ====
section
/-! DEFINITION. The block-processor tower, lengths above 16: INIT, BLK96, RCLOSE, BLK48, BLK24, TAIL
(spec/42_tower.md R120 to R126). -/

namespace Sys2Proof.Machine

/-- The lanes INIT writes; lanes 3 to 5 meet the seed only from 96 bytes on (R120). -/
def initLanes (c : Config.Consts) (seed len : Word) : Lanes :=
  if len.toNat ≥ 96 then
    { s0 := c.c0 + seed, s1 := c.c1 - seed, s2 := c.c2 ^^^ seed
      s3 := c.c3 + seed, s4 := c.c4 - seed, s5 := c.c5 ^^^ seed }
  else
    { s0 := c.c0 + seed, s1 := c.c1 - seed, s2 := c.c2 ^^^ seed
      s3 := c.c3, s4 := c.c4, s5 := c.c5 }

/-- INIT, for any constants (R120); `RING` is loaded whatever the length (D25). -/
def initWith (k : Config.Consts) (s : State) : Result :=
  .next ({ s with
    lanes := initLanes k s.seed s.len
    ring := k.ringInit
    p := 0
    q := s.len }.setPhase (afterInit s.len))

/-- INIT (R120). -/
def execInit (s : State) : Result := initWith Config.consts s

/-- The lane pairs of BLK96, in the order of its six chained steps (R121). -/
def ringPairs : List (Nat × Lane × Lane) :=
  [(0, .l0, .l1), (1, .l1, .l2), (2, .l2, .l3), (3, .l3, .l4), (4, .l4, .l5), (5, .l5, .l0)]

/-- One step of BLK96: two words into the two lanes, multiply, fold the previous low word and this
high word into the first lane (added in standard mode, C10; overwritten in fast mode), pass this low
word on (R121). -/
def blk96Step (fast : Bool) (m : Mem) (p : Nat) (acc : Lanes × Word) (x : Nat × Lane × Lane) :
    Except Fault (Lanes × Word) := do
  let (l, prev) := acc
  let (k, a, b) := x
  let w0 ← rd64 m (p + 16 * k)
  let w1 ← rd64 m (p + 16 * k + 8)
  let l := (l.xor a w0).xor b w1
  let (lo, hi) := wmul (l.get a) (l.get b)
  let f := prev ^^^ hi
  return (l.set a (if fast then f else l.get a + f), lo)

/-- The six steps of one iteration: the lanes and the new ring carry (R121). -/
def blk96Mix (fast : Bool) (m : Mem) (p : Nat) (l : Lanes) (ring : Word) :
    Except Fault (Lanes × Word) :=
  ringPairs.foldlM (blk96Step fast m p) (l, ring)

/-- BLK96, one iteration (R121). -/
def execBlk96 (s : State) : Result :=
  onRead (blk96Mix (fastOf s.op) s.msg s.p.toNat s.lanes s.ring) fun (l, ring) =>
    .next ({ s with lanes := l, ring := ring, p := s.p + 96, q := s.q - 96 }.setPhase
      (afterBlk96 (s.q - 96)))

/-- RCLOSE: the closing adjustment, in both modes (R122, C1). -/
def execRclose (s : State) : Result :=
  .next ({ s with lanes := s.lanes.xor .l0 s.ring }.setPhase .blk48)

/-- The fold of BLK48 and BLK24: low half to the first lane, high half to the second, accumulated by
XOR in standard mode, overwritten in fast mode (R123, R124). -/
def foldPair (fast : Bool) (l : Lanes) (a b : Lane) : Lanes :=
  let (lo, hi) := wmul (l.get a) (l.get b)
  if fast then (l.set a lo).set b hi else (l.xor a lo).xor b hi

/-- One step of BLK48: two words into the pair, then the fold (R123). -/
def blk48Step (fast : Bool) (m : Mem) (p : Nat) (l : Lanes) (x : Nat × Lane × Lane) :
    Except Fault Lanes := do
  let (k, a, b) := x
  let w0 ← rd64 m (p + 16 * k)
  let w1 ← rd64 m (p + 16 * k + 8)
  return foldPair fast ((l.xor a w0).xor b w1) a b

/-- The three pairs of BLK48 (R123). -/
def blk48Mix (fast : Bool) (m : Mem) (p : Nat) (l : Lanes) : Except Fault Lanes :=
  [(0, Lane.l0, Lane.l1), (1, .l2, .l3), (2, .l4, .l5)].foldlM (blk48Step fast m p) l

/-- BLK48: consumes a block only if `Q >= 48` (R123). -/
def execBlk48 (s : State) : Result :=
  if s.q.toNat ≥ 48 then
    onRead (blk48Mix (fastOf s.op) s.msg s.p.toNat s.lanes) fun l =>
      .next ({ s with lanes := l, p := s.p + 48, q := s.q - 48 }.setPhase .blk24)
  else .next (s.setPhase .blk24)

/-- One step of BLK24: one word into the second lane of the pair, then the fold (R124). -/
def blk24Step (fast : Bool) (m : Mem) (p : Nat) (l : Lanes) (x : Nat × Lane × Lane) :
    Except Fault Lanes := do
  let (k, a, b) := x
  let w ← rd64 m (p + 8 * k)
  return foldPair fast (l.xor b w) a b

/-- The three pairs of BLK24 (R124). -/
def blk24Mix (fast : Bool) (m : Mem) (p : Nat) (l : Lanes) : Except Fault Lanes :=
  [(0, Lane.l0, Lane.l3), (1, .l1, .l4), (2, .l2, .l5)].foldlM (blk24Step fast m p) l

/-- BLK24: consumes a block only if `Q >= 24` (R124). -/
def execBlk24 (s : State) : Result :=
  if s.q.toNat ≥ 24 then
    onRead (blk24Mix (fastOf s.op) s.msg s.p.toNat s.lanes) fun l =>
      .next ({ s with lanes := l, p := s.p + 24, q := s.q - 24 }.setPhase .tail)
  else .next (s.setPhase .tail)

/-- The raw lanes of the tail: RDSHORT with `k = 0`, or three words of which the last may overlap the
middle (R125). -/
def tailRead (m : Mem) (p q : Nat) : Except Fault (Word × Word × Word) :=
  if q ≤ 16 then do
    let (i, j) ← rdshort m p q
    return (i, j, 0)
  else do
    let i ← rd64 m p
    let j ← rd64 m (p + 8)
    let k ← rd64 m (p + q - 8)
    return (i, j, k)

/-- CHI across the lane triples (0,2,4) and (1,3,5) (R125). -/
def tailLanes (l : Lanes) : Lanes :=
  let (a0, a2, a4) := chi l.s0 l.s2 l.s4
  let (a1, a3, a5) := chi l.s1 l.s3 l.s5
  { s0 := a0, s1 := a1, s2 := a2, s3 := a3, s4 := a4, s5 := a5 }

/-- TAIL: the tail fold; the test is on the total length (R125). -/
def execTail (s : State) : Result :=
  onRead (tailRead s.msg s.p.toNat s.q.toNat) fun (i, j, k) =>
    if s.len.toNat ≥ 24 then
      let l := tailLanes s.lanes
      .next ({ s with
        lanes := l
        laneI := i ^^^ (l.s0 + l.s1)
        laneJ := j ^^^ (l.s2 + l.s3)
        laneK := k ^^^ (l.s4 + l.s5) }.setPhase .layerf)
    else
      .next ({ s with
        laneI := i ^^^ s.lanes.s0
        laneJ := j ^^^ s.lanes.s1
        laneK := k ^^^ s.lanes.s2 }.setPhase .layerf)

end Sys2Proof.Machine
end

