-- ==== Sys2Proof/Machine/Commands.lean ====
section
/-! DEFINITION. START, the IDLE phase and the four commands as transactions
(spec/44_dispatcher.md R150 to R160). -/

namespace Sys2Proof.Machine

/-- START (R150): accepted only when `BUSY = 0` (R192) and `PHASE` names a phase (R73); the operands
are latched, the flags set, the path selected; the digest registers become unspecified (log 5). -/
def start (c : Command) (s : State) : Result :=
  if s.busy then .refused .startWhileBusy
  else
    namedPhase s (.next
      ((({ s.loseDigest with op := c.op, seed := c.seed, len := c.len }.flagsAtStart).retire).setPhase
        (startPhase c.len)))

/-- IDLE: waits for START (R150, R152). -/
def execIdle (s : State) : Result :=
  match s.request with
  | .start c => start c s
  | _ => .next (s.setPhase .idle)

/-- The short path of a command (R153): SHORT, then an epilogue. -/
def shortPath (k : Config.Consts) (epis : State → Result) (s : State) : Result :=
  andThen (shortWith k s) epis

/-- The long path of a command (R153): INIT, BLK96 `floor(LEN/96)` times, RCLOSE if `LEN >= 96`,
BLK48, BLK24, TAIL, LAYERF, then an epilogue. -/
def longPath (k : Config.Consts) (len : Nat) (epil : State → Result) (s : State) : Result :=
  andThen (initWith k s) fun s =>
  andThen (times execBlk96 (len / 96) s) fun s =>
  andThen (if len ≥ 96 then execRclose s else .next s) fun s =>
  andThen (execBlk48 s) fun s =>
  andThen (execBlk24 s) fun s =>
  andThen (execTail s) fun s =>
  andThen (layerfWith k s) epil

/-- A command as one transaction (R153 to R156): START, then the path its length selects (R151). -/
def transaction (k : Config.Consts) (c : Command) (epis epil : State → Result) (s : State) : Result :=
  andThen (start c s) fun s =>
    if c.len.toNat ≤ 16 then shortPath k epis s else longPath k c.len.toNat epil s

/-- HASH64, for any constants (R153): `OP = 00`, 64-bit epilogues. -/
def hash64With (k : Config.Consts) (seed len : Word) (s : State) : Result :=
  transaction k ⟨0b00#2, seed, len⟩ (epis64With k) (epil64With k) s

/-- HASH64F, for any constants (R154): `OP = 01`, the composition of HASH64 in fast mode. -/
def hash64fWith (k : Config.Consts) (seed len : Word) (s : State) : Result :=
  transaction k ⟨0b01#2, seed, len⟩ (epis64With k) (epil64With k) s

/-- HASH128, for any constants (R155): `OP = 10`, 128-bit epilogues. -/
def hash128With (k : Config.Consts) (seed len : Word) (s : State) : Result :=
  transaction k ⟨0b10#2, seed, len⟩ (epis128With k) (epil128With k) s

/-- HASH128F, for any constants (R156): `OP = 11`, the composition of HASH128 in fast mode. -/
def hash128fWith (k : Config.Consts) (seed len : Word) (s : State) : Result :=
  transaction k ⟨0b11#2, seed, len⟩ (epis128With k) (epil128With k) s

/-- HASH64 (R153). -/
def execHash64 (seed len : Word) (s : State) : Result := hash64With Config.consts seed len s

/-- HASH64F (R154). -/
def execHash64f (seed len : Word) (s : State) : Result := hash64fWith Config.consts seed len s

/-- HASH128 (R155). -/
def execHash128 (seed len : Word) (s : State) : Result := hash128With Config.consts seed len s

/-- HASH128F (R156). -/
def execHash128f (seed len : Word) (s : State) : Result := hash128fWith Config.consts seed len s

/-- How many steps of the sequencer a command takes, the IDLE step that accepts START among them
(R196): 3 on the short path; on the long path IDLE, INIT, BLK48, BLK24, TAIL, LAYERF and an
epilogue, `floor(LEN/96)` times BLK96, and RCLOSE from 96 bytes on. -/
def stepCount (len : Word) : Nat :=
  if len.toNat ≤ 16 then 3
  else 7 + len.toNat / 96 + (if len.toNat ≥ 96 then 1 else 0)

end Sys2Proof.Machine
end

