-- ==== Sys2Proof/Machine/Units.lean ====
section
/-! DEFINITION. The unit functions applied alone (spec/30_encoding.md R75,
spec/40_primitives.md R91 to R97). They write no register and no flag of the engine; their result
stands on the model's bench, in `unitOut` (log 4). -/

namespace Sys2Proof.Machine

/-- WMUL (R91). -/
def execWmul (a b : Word) (s : State) : Result :=
  .next (s.setUnitOut (.pair (wmul a b).1 (wmul a b).2))

/-- ROTL (R92). -/
def execRotl (v n : Word) (s : State) : Result :=
  .next (s.setUnitOut (.word (rotl v n.toNat)))

/-- ROTR (R93). -/
def execRotr (v n : Word) (s : State) : Result :=
  .next (s.setUnitOut (.word (rotr v n.toNat)))

/-- CHI (R94). -/
def execChi (t u v : Word) (s : State) : Result :=
  .next (s.setUnitOut (.triple (chi t u v).1 (chi t u v).2.1 (chi t u v).2.2))

/-- RD32 (R95). -/
def execRd32 (addr : Word) (s : State) : Result :=
  onRead (rd32 s.msg addr.toNat) fun v => .next (s.setUnitOut (.word v))

/-- RD64 (R96). -/
def execRd64 (addr : Word) (s : State) : Result :=
  onRead (rd64 s.msg addr.toNat) fun v => .next (s.setUnitOut (.word v))

/-- RDSHORT (R97). -/
def execRdshort (base n : Word) (s : State) : Result :=
  onRead (rdshort s.msg base.toNat n.toNat) fun (i, j) => .next (s.setUnitOut (.pair i j))

end Sys2Proof.Machine
end

