-- ==== Sys2Proof/Machine/Dispatch.lean ====
section
/-! DEFINITION. One arm per constructor of Instr, one direct call of its meaning each. -/

namespace Sys2Proof.Machine

def exec (i : Instr) (s : State) : Host.Outcome State Fault Refusal :=
  match i with
  | .hash64 seed len => Sys2Proof.Machine.execHash64 seed len s
  | .hash64f seed len => Sys2Proof.Machine.execHash64f seed len s
  | .hash128 seed len => Sys2Proof.Machine.execHash128 seed len s
  | .hash128f seed len => Sys2Proof.Machine.execHash128f seed len s
  | .idle => Sys2Proof.Machine.execIdle s
  | .short => Sys2Proof.Machine.execShort s
  | .epis64 => Sys2Proof.Machine.execEpis64 s
  | .epis128 => Sys2Proof.Machine.execEpis128 s
  | .init => Sys2Proof.Machine.execInit s
  | .blk96 => Sys2Proof.Machine.execBlk96 s
  | .rclose => Sys2Proof.Machine.execRclose s
  | .blk48 => Sys2Proof.Machine.execBlk48 s
  | .blk24 => Sys2Proof.Machine.execBlk24 s
  | .tail => Sys2Proof.Machine.execTail s
  | .layerf => Sys2Proof.Machine.execLayerf s
  | .epil64 => Sys2Proof.Machine.execEpil64 s
  | .epil128 => Sys2Proof.Machine.execEpil128 s
  | .wmul a b => Sys2Proof.Machine.execWmul a b s
  | .rotl v n => Sys2Proof.Machine.execRotl v n s
  | .rotr v n => Sys2Proof.Machine.execRotr v n s
  | .chi t u v => Sys2Proof.Machine.execChi t u v s
  | .rd32 addr => Sys2Proof.Machine.execRd32 addr s
  | .rd64 addr => Sys2Proof.Machine.execRd64 addr s
  | .rdshort base n => Sys2Proof.Machine.execRdshort base n s

end Sys2Proof.Machine
end

