-- ==== Sys2Proof/Machine/Fetch.lean ====
section
/-! DEFINITION. What the sequencer takes at a step: the row `PHASE` names (spec/10_state.md R24,
spec/44_dispatcher.md R152), or what the host presents (R150, R161; log 3), and the step around it. -/

namespace Sys2Proof.Machine

/-- The row `PHASE` names; a code that names none is refused (R73, U5). -/
def fetchPhase (s : State) : Except Refusal Instr :=
  match Phase.ofCode s.phase with
  | some p => .ok p.instr
  | none => .error (.reservedPhase s.phase)

/-- A packet, decoded. -/
def fetchPacket (f : Format) (bs : List Byte) : Except Refusal Instr :=
  match decode f bs with
  | .ok i => .ok i
  | .error r => .error (.undecodable r)

/-- What the engine does when the host presents nothing: the row `PHASE` names, and in IDLE a unit
function waiting on the bench (log 4). -/
def fetchRow (s : State) : Except Refusal Instr :=
  match s.unitIn with
  | some bs => if s.phase = Phase.idle.code then fetchPacket .unit bs else fetchPhase s
  | none => fetchPhase s

/-- The instruction of this step. START is taken by IDLE (R150); while a command is in progress IDLE
refuses it (R192). -/
def fetch (s : State) : Except Refusal Instr :=
  match s.request with
  | .start _ => .ok .idle
  | .call bs => fetchPacket .cmd bs
  | .none => fetchRow s
  | .reset => fetchRow s
  | .place _ _ => fetchRow s

/-- Whether writing the bytes from `base` on would change a byte of `0 .. len-1`. -/
def changesMessage (m : Mem) (len : Nat) : Nat → List Byte → Bool
  | _, [] => false
  | a, b :: bs => (decide (a < len) && (m.byte? a != some b)) || changesMessage m len (a + 1) bs

/-- The host places message bytes (R161); while `BUSY = 1` a change of a byte of `0 .. LEN-1` is
refused (R193, U6; log 12). DESIGN CHOICE, unsafe (log 17): bytes placed earlier stay held, for a longer
message too, and nothing withdraws a byte; the spec does not say. -/
def hostPlace (base : Nat) (bytes : List Byte) (s : State) : Result :=
  if s.busy && changesMessage s.msg s.len.toNat base bytes then .refused .messageChanged
  else namedPhase s (.next ({ s with msg := s.msg.writes base bytes }.retire))

/-- One step of the machine whose instructions mean `ex`. Reset has priority over everything (R173). -/
def stepOf (ex : Instr → State → Result) (s : State) : Result :=
  match s.request with
  | .reset => .next s.resetEvent
  | .place base bytes => hostPlace base bytes s
  | _ =>
    match fetch s with
    | .ok i => ex i s
    | .error r => .refused r

/-- A packet put where the next step takes its instruction: a command into the host's slot, a phase
code into `PHASE`, a unit function on the bench with the engine in IDLE. -/
def State.withPacket (s : State) (k : Packet) : State :=
  match k.format with
  | .cmd => { s with request := .call k.bytes }
  | .unit => { s with unitIn := some k.bytes, phase := Phase.idle.code, request := .none }
  | .phase => { s with phase := BitVec.ofNat 4 (leNat k.bytes), request := .none, unitIn := none }

end Sys2Proof.Machine
end

