-- ==== Sys2Proof/Machine/Step.lean ====
section
/-! DEFINITION. One step: the host's reset (spec/70_reset_and_hazards.md R190) and placing of bytes
(spec/44_dispatcher.md R161), or the instruction fetched. -/

namespace Sys2Proof.Machine

/-- One step of the machine. -/
def step (s : State) : Host.Outcome State Fault Refusal := stepOf exec s

/-- The state with a table word stored where `step` takes its next instruction. -/
def State.withFetchWord (s : State) (nbits w : Nat) : State := s.withPacket (tablePacket nbits w)

end Sys2Proof.Machine
end

