-- ==== Sys2Proof/Machine/Params.lean ====
section
/-! DEFINITION. The machine with the constants `C[0..5]` and `RING_INIT` as an argument
(spec/00_scope.md R8, R9, spec/93_implementation_defined.md U11). -/

namespace Sys2Proof.Machine

/-- What an instruction does, for any constants. -/
def execWith (k : Config.Consts) (i : Instr) (s : State) : Result :=
  match i with
  | .hash64 seed len => hash64With k seed len s
  | .hash64f seed len => hash64fWith k seed len s
  | .hash128 seed len => hash128With k seed len s
  | .hash128f seed len => hash128fWith k seed len s
  | .idle => execIdle s
  | .short => shortWith k s
  | .epis64 => epis64With k s
  | .epis128 => epis128With k s
  | .init => initWith k s
  | .blk96 => execBlk96 s
  | .rclose => execRclose s
  | .blk48 => execBlk48 s
  | .blk24 => execBlk24 s
  | .tail => execTail s
  | .layerf => layerfWith k s
  | .epil64 => epil64With k s
  | .epil128 => epil128With k s
  | .wmul a b => execWmul a b s
  | .rotl v n => execRotl v n s
  | .rotr v n => execRotr v n s
  | .chi t u v => execChi t u v s
  | .rd32 addr => execRd32 addr s
  | .rd64 addr => execRd64 addr s
  | .rdshort base n => execRdshort base n s

/-- One step, for any constants. -/
def stepWith (k : Config.Consts) (s : State) : Result := stepOf (execWith k) s

/-- The machine, for any constants. -/
def coreWith (k : Config.Consts) : Host.Core :=
  { State := State, Fault := Fault, Refusal := Refusal, step := stepWith k, reset := State.reset }

end Sys2Proof.Machine
end

