-- ==== Sys2Proof/Machine/HostSide.lean ====
section
/-! DEFINITION. What the host sees and does (spec/10_state.md R32, spec/30_encoding.md R78,
spec/30_encoding.md R77, spec/44_dispatcher.md R160 to R162, spec/70_reset_and_hazards.md R194). -/

namespace Sys2Proof.Machine

/-- What the host can read (R32): the two flags at any time, the digest words where they mean
something (R194): `DIGEST0` while `DVALID = 1`, `DIGEST1` besides only after a 128-bit command. -/
structure HostView where
  busy : Bool
  dvalid : Bool
  digest0 : Option Word
  digest1 : Option Word
deriving DecidableEq, Repr

/-- The host's view of a state (log 13). -/
def State.hostView (s : State) : HostView where
  busy := s.busy
  dvalid := s.dvalid
  digest0 := if s.dvalid then some s.digest0 else none
  digest1 := if s.dvalid && wideOf s.op then some s.digest1 else none

/-- The bytes of the digest of a completed command: `DIGEST0` little-endian, then for a 128-bit
digest `DIGEST1` little-endian (R78). -/
def State.digestBytes (s : State) : List Byte :=
  if wideOf s.op then leBytes 8 s.digest0.toNat ++ leBytes 8 s.digest1.toNat
  else leBytes 8 s.digest0.toNat

/-- A command of a given code (R71). -/
def commandInstr (op : BitVec 2) (seed len : Word) : Instr :=
  match wideOf op, fastOf op with
  | false, false => .hash64 seed len
  | false, true => .hash64f seed len
  | true, false => .hash128 seed len
  | true, true => .hash128f seed len

/-- One command of the host with the bytes it places for it (R77); where it places fewer than `len` the
command reads what is held, or faults (R56; log 17). -/
structure Job where
  op : BitVec 2
  seed : Word
  len : Word
  bytes : List Byte
deriving DecidableEq, Repr

/-- The host places the bytes of a job from offset 0 (R161), then calls its command. -/
def Job.run (j : Job) (s : State) : Result :=
  andThen (step { s with request := .place 0 j.bytes }) fun s =>
    exec (commandInstr j.op j.seed j.len) s

/-- A program (R77): commands one after another on one engine; what the host does in between is that
each job may depend on the digests so far, oldest first. -/
abbrev Program := List (List (List Byte) → Job)

/-- How a run of a program ends (R160). -/
inductive Ending where
  /-- its last command completed: the digests, oldest first, and the state -/
  | completed (digests : List (List Byte)) (s : State)
  /-- a command faulted at an offset; no result -/
  | faulted (a : Nat)
  /-- a scenario the spec has no behaviour for (R192, R193) -/
  | refused (r : Refusal)
deriving DecidableEq, Repr

/-- A run of a program after the digests so far: it ends when the last command ends, or at the first
fault (R160). Each command is issued after the one before it has completed (R77). -/
def runProgram : Program → List (List Byte) → State → Ending
  | [], digests, s => .completed digests s
  | job :: rest, digests, s =>
    match (job digests).run s with
    | .next t => runProgram rest (digests ++ [t.digestBytes]) t
    | .fault (.msgFault a) => .faulted a
    | .refused r => .refused r

/-- The key of number `i` of the conformance harness: the bytes `0, 1, .., i-1` (R162). -/
def harnessKey (i : Nat) : List Byte := (List.range i).map (BitVec.ofNat 8)

/-- The conformance harness of a command, a program of 257 commands: the keys, then the buffer of their
digests (R162). -/
def harness (op : BitVec 2) : Program :=
  ((List.range 256).map fun i _ => ⟨op, BitVec.ofNat 64 (256 - i), BitVec.ofNat 64 i, harnessKey i⟩)
    ++ [fun digests => ⟨op, 0, BitVec.ofNat 64 digests.flatten.length, digests.flatten⟩]

/-- The verification code of a run: the first four bytes of the last digest (R162). -/
def Ending.code : Ending → Option Nat
  | .completed digests _ => digests.getLast?.map fun d => leNat (d.take 4)
  | .faulted _ => none
  | .refused _ => none

/-- The verification code of a command: a host program, out of the engine's scope by R5 (R162). -/
def harnessCode (op : BitVec 2) : Option Nat := (runProgram (harness op) [] State.reset).code

end Sys2Proof.Machine
end

