-- ==== Sys2Proof/Safety.lean ====
section
/-! DEFINITION. The terms claims are stated in: which bytes a memory holds and what number they are
(spec/20_memory.md R52, R56), and the invariant of the sequencer (spec/10_state.md R24, R25, R27,
spec/42_tower.md R126). -/

namespace Sys2Proof.Machine

/-- The memory holds every offset of `lo .. hi-1`. -/
abbrev Holds (m : Mem) (lo hi : Nat) : Prop := ∀ x, lo ≤ x → x < hi → m.has x = true

/-- Two memories hold the same bytes at the offsets below `n`. -/
abbrev AgreeBelow (m m' : Mem) (n : Nat) : Prop := ∀ x, x < n → m.byte? x = m'.byte? x

/-- `x` is the lowest offset of `lo .. hi-1` that the memory does not hold. -/
abbrev FirstMissing (m : Mem) (lo hi x : Nat) : Prop :=
  lo ≤ x ∧ x < hi ∧ m.has x = false ∧ Holds m lo x

/-- `MSG[x]` as a number; 0 where no byte is held, which no statement uses. -/
def msgByte (m : Mem) (x : Nat) : Nat :=
  match m.byte? x with
  | some b => b.toNat
  | none => 0

/-- The sum of R52: the bytes at `a .. a+n-1`, little-endian. -/
def msgLE (m : Mem) (a n : Nat) : Nat :=
  ∑ b ∈ Finset.range n, msgByte m (a + b) * 2 ^ (8 * b)

/-- The sum of R52 as a word. -/
def msgWord (m : Mem) (a n : Nat) : Word := BitVec.ofNat 64 (msgLE m a n)

/-- The two words of R97, by the lengths it tells apart, from the numbers of R52. -/
def shortWords (m : Mem) (base n : Nat) : Word × Word :=
  if n = 0 then (0, 0)
  else if n ≤ 3 then
    (BitVec.ofNat 64 (msgByte m base * 2 ^ 48 + msgByte m (base + n / 2) * 2 ^ 24
      + msgByte m (base + n - 1)), 0)
  else if n ≤ 7 then
    (BitVec.ofNat 64 (msgLE m base 4 * 2 ^ 32 + msgLE m (base + n - 4) 4),
     BitVec.ofNat 64 (msgLE m base 4 * 2 ^ 32 + msgLE m (base + n - 4) 4))
  else
    (BitVec.ofNat 64 (msgLE m base 4 * 2 ^ 32 + msgLE m (base + n - 4) 4),
     BitVec.ofNat 64 (msgLE m (base + 4) 4 * 2 ^ 32 + msgLE m (base + n - 8) 4))

/-- The reads of the short reader, offset and width, in the order of R57 and R64. -/
def shortReads (base n : Nat) : List (Nat × Nat) :=
  if n = 0 then []
  else if n ≤ 3 then [(base, 1), (base + n / 2, 1), (base + n - 1, 1)]
  else if n ≤ 7 then [(base, 4), (base + n - 4, 4), (base, 4), (base + n - 4, 4)]
  else [(base, 4), (base + n - 4, 4), (base + 4, 4), (base + n - 8, 4)]

/-- The reads of TAIL, in the order of R57 and R64. -/
def tailReads (p q : Nat) : List (Nat × Nat) :=
  if q ≤ 16 then shortReads p q else [(p, 8), (p + 8, 8), (p + q - 8, 8)]

/-- `a` is the lowest missing offset of the first read of a list that misses one (R171, R173). -/
def FaultsAt (m : Mem) : List (Nat × Nat) → Nat → Prop
  | [], _ => False
  | (x, w) :: rs, a => FirstMissing m x (x + w) a ∨ (Holds m x (x + w) ∧ FaultsAt m rs a)

/-- What holds of the registers when the sequencer is about to take a phase: the lengths that lead
there (R151, R152), and how much of the message is consumed (R25, R126). -/
def phaseInv (s : State) : Phase → Prop
  | .idle => True
  | .short => s.len.toNat ≤ 16
  | .epis64 => s.len.toNat ≤ 16 ∧ wideOf s.op = false
  | .epis128 => s.len.toNat ≤ 16 ∧ wideOf s.op = true
  | .init => 16 < s.len.toNat
  | .blk96 => 96 ≤ s.q.toNat ∧ s.p.toNat % 96 = 0 ∧ s.p.toNat + s.q.toNat = s.len.toNat
  | .rclose => 96 ≤ s.len.toNat ∧ s.q.toNat = s.len.toNat % 96 ∧ s.p.toNat + s.q.toNat = s.len.toNat
  | .blk48 => 16 < s.len.toNat ∧ s.q.toNat = s.len.toNat % 96 ∧ s.p.toNat + s.q.toNat = s.len.toNat
  | .blk24 =>
    16 < s.len.toNat ∧ s.q.toNat = s.len.toNat % 96 % 48 ∧ s.p.toNat + s.q.toNat = s.len.toNat
  | .tail => 16 < s.len.toNat ∧ s.q.toNat = s.len.toNat % 24 ∧ s.p.toNat + s.q.toNat = s.len.toNat
  | .layerf => 16 < s.len.toNat ∧ s.q.toNat = s.len.toNat % 24 ∧ s.p.toNat + s.q.toNat = s.len.toNat
  | .epil64 =>
    16 < s.len.toNat ∧ s.q.toNat = s.len.toNat % 24 ∧ s.p.toNat + s.q.toNat = s.len.toNat ∧
      wideOf s.op = false
  | .epil128 =>
    16 < s.len.toNat ∧ s.q.toNat = s.len.toNat % 24 ∧ s.p.toNat + s.q.toNat = s.len.toNat ∧
      wideOf s.op = true

/-- The invariant of the machine: the memory has its canonical form, `BUSY = 0` if and only if
`PHASE = IDLE`, `BUSY` and `DVALID` are never both 1 (R27), `PHASE` names a phase (R73), and the
registers are as that phase finds them. -/
def Inv (s : State) : Prop :=
  s.msg.wf = true ∧
  (s.busy = false ↔ s.phase = Phase.idle.code) ∧
  ¬ (s.busy = true ∧ s.dvalid = true) ∧
  ∃ x : Phase, s.phase = x.code ∧ phaseInv s x

/-- A run of some steps `st`, stopping at the first fault or refusal. -/
def runOf (st : State → Result) : Nat → State → Result
  | 0, s => .next s
  | k + 1, s => andThen (st s) (runOf st k)

/-- A run of `k` steps of the machine. -/
def runSteps (k : Nat) (s : State) : Result := runOf step k s

/-- The host presents nothing at this step, and no unit function waits on the model's bench. -/
def Quiet (s : State) : Prop := s.request = .none ∧ s.unitIn = none

/-- START is accepted: `BUSY = 0` (R150) and `PHASE` names a phase (R73). -/
def Ready (s : State) : Prop := s.busy = false ∧ (Phase.ofCode s.phase).isSome = true

/-- The state with START presented (R150). -/
def State.presentStart (s : State) (c : Command) : State := { s with request := .start c }

/-- A command has completed with the operands `c` (R157). -/
def Completed (c : Command) (s : State) : Prop :=
  s.dvalid = true ∧ s.busy = false ∧ s.phase = Phase.idle.code ∧ s.op = c.op ∧ s.seed = c.seed ∧
    s.len = c.len

end Sys2Proof.Machine
end

