-- ==== Sys2Proof/Certificates/Slice0/Obligations.lean ====
section
/-! DEFINITION. The statements about the model, for the provers: statements only, no proof. Each
docstring names the rule of spec/ it formalises; where a clause is the model's own choice it names
the log entry. -/

open Sys2Proof Sys2Proof.Machine

/-! ### Encoding -/

/-- R70, R71, R74, R75: the encoder's packet of every well-formed instruction, with every operand at
every value, decodes to that instruction. The byte layout is the model's (log 9). -/
def Obligations.DecodeOfEncode : Prop :=
  ∀ i : Instr, i.wf = true → decode (encode i).format (encode i).bytes = .ok i

/-- The other direction: a packet the decoder accepts is the encoder's packet of a well-formed
instruction, so every packet has at most one meaning (log 9). -/
def Obligations.EncodeOfDecode : Prop :=
  ∀ (f : Format) (bs : List Byte) (i : Instr),
    decode f bs = .ok i → i.wf = true ∧ encode i = ⟨f, bs⟩

/-- R70, R71, R74, R75: words written out by hand from the encoding tables decode to what they stand
for. -/
def Obligations.WrittenWordsDecode : Prop :=
  decode .cmd (leBytes 17 0x0_0000000000000000_0000000000000003) = .ok (.hash64 0 3) ∧
  decode .cmd (leBytes 17 0x1_0123456789ABCDEF_00000000000000AB)
    = .ok (.hash64f 0x0123456789ABCDEF 171) ∧
  decode .cmd (leBytes 17 0x2_0000000000000007_00000000000000C8) = .ok (.hash128 7 200) ∧
  decode .cmd (leBytes 17 0x3_0000000000000000_0000000000001000) = .ok (.hash128f 0 4096) ∧
  decode .phase [0b00000001#8] = .ok .short ∧
  decode .phase [0b00000101#8] = .ok .blk96 ∧
  decode .phase [0b00001100#8] = .ok .epil128 ∧
  decode .unit (leBytes 25 0b011) = .ok (.chi 0 0 0) ∧
  decode .unit (leBytes 25 0b110) = .ok (.rdshort 0 0)

/-! ### The step -/

/-- A step runs the decoded instruction, and adds nothing around it: with nothing presented the row
`PHASE` names (R24, R74), with START presented IDLE (R150), with a command packet presented what it
decodes to (log 3); in IDLE with nothing presented and a unit packet on the model's bench, that unit
function (log 4). -/
def Obligations.StepRunsDecoded : Prop :=
  ∀ s : State,
    (∀ x : Phase, s.request = .none → s.phase = x.code → (x = .idle → s.unitIn = none) →
      step s = exec x.instr s) ∧
    (∀ c : Command, s.request = .start c → step s = exec .idle s) ∧
    (∀ (bs : List Byte) (i : Instr),
      s.request = .call bs → decode .cmd bs = .ok i → step s = exec i s) ∧
    (∀ (bs : List Byte) (i : Instr), s.request = .none → s.phase = 0b0000#4 →
      s.unitIn = some bs → decode .unit bs = .ok i → step s = exec i s)

/-- A table word stored where the step takes its instruction is the instruction the step runs
(log 3, log 9). -/
def Obligations.FetchedTableWordRuns : Prop :=
  ∀ (s : State) (nbits w : Nat) (i : Instr), decodeTableWord nbits w = some i →
    step (s.withFetchWord nbits w) = exec i (s.withFetchWord nbits w)

/-- R73, U5: a state whose `PHASE` holds a code that names no phase is refused, whatever the host
presents but reset, which has priority over everything (R173; log 10); the reason is the code, unless the
host does what is refused anyway. -/
def Obligations.ReservedPhaseCodesRefused : Prop :=
  ∀ s : State, 13 ≤ s.phase.toNat →
    (s.request ≠ .reset → ∃ r, step s = .refused r) ∧
    (s.request = .none → step s = .refused (.reservedPhase s.phase)) ∧
    (s.busy = false → (∀ c, s.request = .start c → step s = .refused (.reservedPhase s.phase)) ∧
      (∀ base bs, s.request = .place base bs → step s = .refused (.reservedPhase s.phase)) ∧
      ∀ op seed len, exec (commandInstr op seed len) s = .refused (.reservedPhase s.phase))

/-- R152: the sequencing table, row by row; conditions on the registers at the end of the phase. -/
def Obligations.SequencingTable : Prop :=
  ∀ s t : State,
    (exec .idle s = .next t → (∀ c, s.request ≠ .start c) → t.phase = 0b0000#4) ∧
    (∀ c, exec .idle s = .next t → s.request = .start c →
      t.phase = if t.len.toNat ≤ 16 then 0b0001#4 else 0b0100#4) ∧
    (exec .short s = .next t → t.phase = if wideOf t.op then 0b0011#4 else 0b0010#4) ∧
    (exec .epis64 s = .next t → t.phase = 0b0000#4) ∧
    (exec .epis128 s = .next t → t.phase = 0b0000#4) ∧
    (exec .init s = .next t → t.phase = if t.len.toNat ≥ 96 then 0b0101#4 else 0b0111#4) ∧
    (exec .blk96 s = .next t → t.phase = if t.q.toNat ≥ 96 then 0b0101#4 else 0b0110#4) ∧
    (exec .rclose s = .next t → t.phase = 0b0111#4) ∧
    (exec .blk48 s = .next t → t.phase = 0b1000#4) ∧
    (exec .blk24 s = .next t → t.phase = 0b1001#4) ∧
    (exec .tail s = .next t → t.phase = 0b1010#4) ∧
    (exec .layerf s = .next t → t.phase = if wideOf t.op then 0b1100#4 else 0b1011#4) ∧
    (exec .epil64 s = .next t → t.phase = 0b0000#4) ∧
    (exec .epil128 s = .next t → t.phase = 0b0000#4)

/-! ### Reset, START, IDLE -/

/-- R33, R190: the control registers after reset. -/
def Obligations.ResetControlValues : Prop :=
  State.reset.phase = 0b0000#4 ∧ State.reset.busy = false ∧ State.reset.dvalid = false

/-- R190: reset at any time, a command in progress or not, gives the three control registers their
values and leaves the message alone; of the other registers nothing is said. -/
def Obligations.ResetEventDiscardsCommand : Prop :=
  ∀ s : State, s.request = .reset → ∃ t, step s = .next t ∧
    t.phase = 0b0000#4 ∧ t.busy = false ∧ t.dvalid = false ∧ t.msg = s.msg

/-- R150, R151, R192: START is taken when `BUSY = 0`: the operands are latched, the flags set, the
path selected by `LEN <= 16`, the digest registers hold any values, every other register what it
held; when `BUSY = 1` it is refused. The counter and the slot are the model's own (log 3, log 5); a
`PHASE` that names no phase is the other refusal (R73). -/
def Obligations.StartLatchesCommand : Prop :=
  ∀ (s : State) (c : Command), s.request = .start c →
    (Ready s → ∃ (d0 d1 : Word) (n : Nat),
      exec .idle s = .next { s with
        op := c.op, seed := c.seed, len := c.len, dvalid := false, busy := true
        phase := if c.len.toNat ≤ 16 then 0b0001#4 else 0b0100#4
        digest0 := d0, digest1 := d1, freeCount := n, request := .none }) ∧
    (s.busy = true → exec .idle s = .refused .startWhileBusy)

/-- R152, R159: without START, IDLE changes nothing but `PHASE`, which stays IDLE. -/
def Obligations.IdleWaits : Prop :=
  ∀ s : State, (∀ c, s.request ≠ .start c) → exec .idle s = .next { s with phase := 0b0000#4 }

/-- R157, R159: with nothing presented the engine stays in IDLE, every register held, for any number
of steps. -/
def Obligations.IdleHoldsEverything : Prop :=
  ∀ (s : State) (k : Nat), Quiet s → s.phase = 0b0000#4 → runSteps k s = .next s

/-- R192: a command presented while `BUSY = 1` is refused, at either grain. -/
def Obligations.CommandWhileBusyRefused : Prop :=
  ∀ (s : State) (seed len : Word), s.busy = true →
    exec (.hash64 seed len) s = .refused .startWhileBusy ∧
    exec (.hash64f seed len) s = .refused .startWhileBusy ∧
    exec (.hash128 seed len) s = .refused .startWhileBusy ∧
    exec (.hash128f seed len) s = .refused .startWhileBusy ∧
    ∀ op, step (s.presentStart ⟨op, seed, len⟩) = .refused .startWhileBusy

/-! ### The unit functions -/

/-- R91: WMUL gives the exact product in two halves, of which the high one is never `2^64-1`; no
register changes (its result stands in the model's own field, log 4). -/
def Obligations.WmulIsExactProduct : Prop :=
  ∀ (s : State) (a b : Word), ∃ lo hi : Word,
    exec (.wmul a b) s = .next { s with unitOut := .pair lo hi, unitIn := none } ∧
    hi.toNat * 2 ^ 64 + lo.toNat = a.toNat * b.toNat ∧ hi ≠ BitVec.allOnes 64

/-- R92: ROTL moves bit `k` to bit `(k + r) mod 64`, `r = n mod 64`; no register changes (log 4). -/
def Obligations.RotlMovesBits : Prop :=
  ∀ (s : State) (v n : Word), ∃ x : Word,
    exec (.rotl v n) s = .next { s with unitOut := .word x, unitIn := none } ∧
    (∀ k, k < 64 → x.getLsbD ((k + n.toNat % 64) % 64) = v.getLsbD k) ∧
    (n.toNat % 64 = 0 → x = v)

/-- R93: ROTR moves bit `(k + r) mod 64` to bit `k`, and undoes ROTL; no register changes (log 4). -/
def Obligations.RotrMovesBits : Prop :=
  ∀ (s : State) (v n : Word), ∃ x : Word,
    exec (.rotr v n) s = .next { s with unitOut := .word x, unitIn := none } ∧
    (∀ k, k < 64 → x.getLsbD k = v.getLsbD ((k + n.toNat % 64) % 64)) ∧
    (n.toNat % 64 = 0 → x = v) ∧
    exec (.rotl x n) s = .next { s with unitOut := .word v, unitIn := none }

/-- R94: CHI bit by bit, all three results from the operands as they were, and covariant under
rotating the operands; no register changes (log 4). -/
def Obligations.ChiCombinesSimultaneously : Prop :=
  ∀ (s : State) (t u v : Word), ∃ t' u' v' : Word,
    exec (.chi t u v) s = .next { s with unitOut := .triple t' u' v', unitIn := none } ∧
    exec (.chi u v t) s = .next { s with unitOut := .triple u' v' t', unitIn := none } ∧
    ∀ k, k < 64 →
      t'.getLsbD k = (t.getLsbD k ^^ (!u.getLsbD k && v.getLsbD k)) ∧
      u'.getLsbD k = (u.getLsbD k ^^ (!v.getLsbD k && t.getLsbD k)) ∧
      v'.getLsbD k = (v.getLsbD k ^^ (!t.getLsbD k && u.getLsbD k))

/-- R95, R52, R56: RD32 gives the little-endian number of four bytes, below `2^32`, at any offset; it
faults at the lowest offset not held; no register changes (log 4). -/
def Obligations.Rd32ReadsLittleEndian : Prop :=
  ∀ (s : State) (addr : Word),
    (Holds s.msg addr.toNat (addr.toNat + 4) → ∃ x : Word,
      exec (.rd32 addr) s = .next { s with unitOut := .word x, unitIn := none } ∧
      x.toNat = msgLE s.msg addr.toNat 4 ∧ x.toNat < 2 ^ 32) ∧
    (∀ a, FirstMissing s.msg addr.toNat (addr.toNat + 4) a →
      exec (.rd32 addr) s = .fault (.msgFault a))

/-- R96, R52, R56: RD64 gives the little-endian number of eight bytes at any offset; it faults at the
lowest offset not held; no register changes (log 4). -/
def Obligations.Rd64ReadsLittleEndian : Prop :=
  ∀ (s : State) (addr : Word),
    (Holds s.msg addr.toNat (addr.toNat + 8) → ∃ x : Word,
      exec (.rd64 addr) s = .next { s with unitOut := .word x, unitIn := none } ∧
      x.toNat = msgLE s.msg addr.toNat 8 ∧
      x.toNat = msgLE s.msg addr.toNat 4 + msgLE s.msg (addr.toNat + 4) 4 * 2 ^ 32) ∧
    (∀ a, FirstMissing s.msg addr.toNat (addr.toNat + 8) a →
      exec (.rd64 addr) s = .fault (.msgFault a))

/-- R97: RDSHORT packs 0 to 16 bytes: nothing is read for `n = 0`; three bytes at bits 55:48, 31:24,
7:0 for 1 to 3; four 32-bit reads from 4 on, the offset being 4 from 8 on; no register changes
(log 4). Where a byte is missing it faults at the lowest missing offset of its first read that misses
one, the reads in the order of R57 and R64 (R171, R173). -/
def Obligations.RdshortPacksBytes : Prop :=
  ∀ (s : State) (base n : Word), n.toNat ≤ 16 →
    (Holds s.msg base.toNat (base.toNat + n.toNat) → ∃ i j : Word,
      exec (.rdshort base n) s = .next { s with unitOut := .pair i j, unitIn := none } ∧
      (n.toNat = 0 → i = 0 ∧ j = 0) ∧
      (1 ≤ n.toNat → n.toNat ≤ 3 →
        i.toNat = msgByte s.msg base.toNat * 2 ^ 48
          + msgByte s.msg (base.toNat + n.toNat / 2) * 2 ^ 24
          + msgByte s.msg (base.toNat + n.toNat - 1) ∧ j = 0) ∧
      (4 ≤ n.toNat →
        i.toNat = msgLE s.msg base.toNat 4 * 2 ^ 32
          + msgLE s.msg (base.toNat + n.toNat - 4) 4) ∧
      (4 ≤ n.toNat → n.toNat ≤ 7 → j = i) ∧
      (8 ≤ n.toNat →
        j.toNat = msgLE s.msg (base.toNat + 4) 4 * 2 ^ 32
          + msgLE s.msg (base.toNat + n.toNat - 8) 4)) ∧
    (¬ Holds s.msg base.toNat (base.toNat + n.toNat) → ∃ a,
      exec (.rdshort base n) s = .fault (.msgFault a) ∧ base.toNat ≤ a ∧
      a < base.toNat + n.toNat ∧ s.msg.has a = false) ∧
    (∀ a, FaultsAt s.msg (shortReads base.toNat n.toNat) a →
      exec (.rdshort base n) s = .fault (.msgFault a))

/-! ### The short path -/

/-- R110: SHORT, on every state whose bytes `0 .. LEN-1` are held (with `LEN` above 16, which no run
reaches, the model's reading: log 15). -/
def Obligations.ShortMixesSeedAndLength : Prop :=
  ∀ s : State, Holds s.msg 0 s.len.toNat →
    let w := shortWords s.msg 0 s.len.toNat
    let m := wmul (s.seed ^^^ Config.consts.c0) (s.len ^^^ Config.consts.c1)
    exec .short s = .next { s with
      laneI := w.1 ^^^ m.1 ^^^ s.len
      laneJ := w.2 ^^^ m.2 ^^^ s.seed
      phase := if wideOf s.op then 0b0011#4 else 0b0010#4 }

/-- R111: EPIS64; it reads no mode and does not write `DIGEST1`. -/
def Obligations.Epis64TwoMultiplies : Prop :=
  ∀ s : State,
    let i1 := s.laneI ^^^ Config.consts.c2
    let j1 := s.laneJ ^^^ Config.consts.c3
    let m1 := wmul i1 j1
    let i2 := i1 ^^^ m1.1 ^^^ Config.consts.c4
    let j2 := j1 ^^^ m1.2 ^^^ Config.consts.c5
    let m2 := wmul i2 j2
    exec .epis64 s = .next { s with
      digest0 := i2 ^^^ j2 ^^^ m2.1 ^^^ m2.2
      dvalid := true, busy := false, phase := 0b0000#4 }

/-- R112: EPIS128, the two rounds in each mode. -/
def Obligations.Epis128TwoRounds : Prop :=
  ∀ s : State,
    (fastOf s.op = false →
      let a := wmul (s.laneI ^^^ Config.consts.c2) s.laneJ
      let b := wmul s.laneI (s.laneJ ^^^ Config.consts.c3)
      let i := s.laneI ^^^ a.1 ^^^ b.2
      let j := s.laneJ ^^^ b.1 ^^^ a.2
      let c := wmul (i ^^^ Config.consts.c4) j
      let d := wmul i (j ^^^ Config.consts.c5)
      exec .epis128 s = .next { s with
        digest0 := i ^^^ c.1 ^^^ d.2, digest1 := j ^^^ d.1 ^^^ c.2
        dvalid := true, busy := false, phase := 0b0000#4 }) ∧
    (fastOf s.op = true →
      let a := wmul s.laneI s.laneJ
      let b := wmul (s.laneI ^^^ Config.consts.c2) (s.laneJ ^^^ Config.consts.c3)
      let i := a.1 ^^^ b.2
      let j := b.1 ^^^ a.2
      let c := wmul i j
      let d := wmul (i ^^^ Config.consts.c4) (j ^^^ Config.consts.c5)
      exec .epis128 s = .next { s with
        digest0 := c.1 ^^^ d.2, digest1 := d.1 ^^^ c.2
        dvalid := true, busy := false, phase := 0b0000#4 })

/-! ### The tower -/

/-- R120: INIT; lanes 3 to 5 meet the seed only from 96 bytes on, `RING` is loaded always. -/
def Obligations.InitLoadsLanes : Prop :=
  ∀ s : State,
    let c := Config.consts
    exec .init s = .next { s with
      lanes :=
        { s0 := c.c0 + s.seed, s1 := c.c1 - s.seed, s2 := c.c2 ^^^ s.seed
          s3 := if s.len.toNat ≥ 96 then c.c3 + s.seed else c.c3
          s4 := if s.len.toNat ≥ 96 then c.c4 - s.seed else c.c4
          s5 := if s.len.toNat ≥ 96 then c.c5 ^^^ s.seed else c.c5 }
      ring := c.ringInit, p := 0, q := s.len
      phase := if s.len.toNat ≥ 96 then 0b0101#4 else 0b0111#4 }

/-- R121: BLK96, its six chained steps written out one by one, in both modes, on every state whose
bytes `P .. P+95` are held (with `Q` below 96, which no run reaches, the model's reading: log 15). -/
def Obligations.Blk96ChainsSixSteps : Prop :=
  ∀ s : State, Holds s.msg s.p.toNat (s.p.toNat + 96) →
    let w := fun k => msgWord s.msg (s.p.toNat + 8 * k) 8
    let fold := fun (a f : Word) => if fastOf s.op then f else a + f
    let x0 := s.lanes.s0 ^^^ w 0
    let x1 := s.lanes.s1 ^^^ w 1
    let m0 := wmul x0 x1
    let y0 := fold x0 (s.ring ^^^ m0.2)
    let z1 := x1 ^^^ w 2
    let x2 := s.lanes.s2 ^^^ w 3
    let m1 := wmul z1 x2
    let y1 := fold z1 (m0.1 ^^^ m1.2)
    let z2 := x2 ^^^ w 4
    let x3 := s.lanes.s3 ^^^ w 5
    let m2 := wmul z2 x3
    let y2 := fold z2 (m1.1 ^^^ m2.2)
    let z3 := x3 ^^^ w 6
    let x4 := s.lanes.s4 ^^^ w 7
    let m3 := wmul z3 x4
    let y3 := fold z3 (m2.1 ^^^ m3.2)
    let z4 := x4 ^^^ w 8
    let x5 := s.lanes.s5 ^^^ w 9
    let m4 := wmul z4 x5
    let y4 := fold z4 (m3.1 ^^^ m4.2)
    let z5 := x5 ^^^ w 10
    let z0 := y0 ^^^ w 11
    let m5 := wmul z5 z0
    let y5 := fold z5 (m4.1 ^^^ m5.2)
    exec .blk96 s = .next { s with
      lanes := { s0 := z0, s1 := y1, s2 := y2, s3 := y3, s4 := y4, s5 := y5 }
      ring := m5.1, p := s.p + 96, q := s.q - 96
      phase := if (s.q - 96).toNat ≥ 96 then 0b0101#4 else 0b0110#4 }

/-- R122, C1: RCLOSE XORs the ring carry into lane 0, in both modes. -/
def Obligations.RcloseXorsRing : Prop :=
  ∀ s : State, exec .rclose s = .next { s with
    lanes := { s.lanes with s0 := s.lanes.s0 ^^^ s.ring }, phase := 0b0111#4 }

/-- R123: BLK48 consumes a block when `Q >= 48`, each pair taking two words, and else changes nothing
but `PHASE`. -/
def Obligations.Blk48FoldsPairs : Prop :=
  ∀ s : State,
    (48 ≤ s.q.toNat → Holds s.msg s.p.toNat (s.p.toNat + 48) →
      let w := fun k => msgWord s.msg (s.p.toNat + 8 * k) 8
      let fold := fun (a f : Word) => if fastOf s.op then f else a ^^^ f
      let x0 := s.lanes.s0 ^^^ w 0
      let x1 := s.lanes.s1 ^^^ w 1
      let x2 := s.lanes.s2 ^^^ w 2
      let x3 := s.lanes.s3 ^^^ w 3
      let x4 := s.lanes.s4 ^^^ w 4
      let x5 := s.lanes.s5 ^^^ w 5
      exec .blk48 s = .next { s with
        lanes :=
          { s0 := fold x0 (wmul x0 x1).1, s1 := fold x1 (wmul x0 x1).2
            s2 := fold x2 (wmul x2 x3).1, s3 := fold x3 (wmul x2 x3).2
            s4 := fold x4 (wmul x4 x5).1, s5 := fold x5 (wmul x4 x5).2 }
        p := s.p + 48, q := s.q - 48, phase := 0b1000#4 }) ∧
    (s.q.toNat < 48 → exec .blk48 s = .next { s with phase := 0b1000#4 })

/-- R124: BLK24 consumes a block when `Q >= 24`, the word going into the second lane of each pair, and
else changes nothing but `PHASE`. -/
def Obligations.Blk24FoldsPairs : Prop :=
  ∀ s : State,
    (24 ≤ s.q.toNat → Holds s.msg s.p.toNat (s.p.toNat + 24) →
      let w := fun k => msgWord s.msg (s.p.toNat + 8 * k) 8
      let fold := fun (a f : Word) => if fastOf s.op then f else a ^^^ f
      let x0 := s.lanes.s0
      let x1 := s.lanes.s1
      let x2 := s.lanes.s2
      let x3 := s.lanes.s3 ^^^ w 0
      let x4 := s.lanes.s4 ^^^ w 1
      let x5 := s.lanes.s5 ^^^ w 2
      exec .blk24 s = .next { s with
        lanes :=
          { s0 := fold x0 (wmul x0 x3).1, s1 := fold x1 (wmul x1 x4).1
            s2 := fold x2 (wmul x2 x5).1, s3 := fold x3 (wmul x0 x3).2
            s4 := fold x4 (wmul x1 x4).2, s5 := fold x5 (wmul x2 x5).2 }
        p := s.p + 24, q := s.q - 24, phase := 0b1001#4 }) ∧
    (s.q.toNat < 24 → exec .blk24 s = .next { s with phase := 0b1001#4 })

/-- R125: TAIL on every state whose bytes `P .. P+Q-1` are held: the raw lanes by `Q`, then the CHI
of the lane triples and the wrapping sums from 24 bytes on, or the first three lanes as they are (for
`Q` above 23, which no run reaches, the model's reading: log 15). -/
def Obligations.TailFoldsRest : Prop :=
  ∀ s : State, Holds s.msg s.p.toNat (s.p.toNat + s.q.toNat) →
    let p := s.p.toNat
    let q := s.q.toNat
    let i := if q ≤ 16 then (shortWords s.msg p q).1 else msgWord s.msg p 8
    let j := if q ≤ 16 then (shortWords s.msg p q).2 else msgWord s.msg (p + 8) 8
    let k := if q ≤ 16 then 0 else msgWord s.msg (p + q - 8) 8
    let l := s.lanes
    let a0 := l.s0 ^^^ (~~~l.s2 &&& l.s4)
    let a2 := l.s2 ^^^ (~~~l.s4 &&& l.s0)
    let a4 := l.s4 ^^^ (~~~l.s0 &&& l.s2)
    let a1 := l.s1 ^^^ (~~~l.s3 &&& l.s5)
    let a3 := l.s3 ^^^ (~~~l.s5 &&& l.s1)
    let a5 := l.s5 ^^^ (~~~l.s1 &&& l.s3)
    (24 ≤ s.len.toNat → exec .tail s = .next { s with
      lanes := { s0 := a0, s1 := a1, s2 := a2, s3 := a3, s4 := a4, s5 := a5 }
      laneI := i ^^^ (a0 + a1), laneJ := j ^^^ (a2 + a3), laneK := k ^^^ (a4 + a5)
      phase := 0b1010#4 }) ∧
    (s.len.toNat < 24 → exec .tail s = .next { s with
      laneI := i ^^^ l.s0, laneJ := j ^^^ l.s1, laneK := k ^^^ l.s2
      phase := 0b1010#4 })

/-! ### Finalization -/

/-- R140: LAYERF in each mode; the rotation by `LEN mod 64`, the XOR with the whole `LEN`. -/
def Obligations.LayerfRingRound : Prop :=
  ∀ s : State,
    let x := chi s.laneI s.laneJ s.laneK
    let i := rotl x.1 (s.len.toNat % 64)
    let j := rotr x.2.1 (s.len.toNat % 64)
    let k := x.2.2 ^^^ s.len
    let next := if wideOf s.op then 0b1100#4 else 0b1011#4
    (fastOf s.op = false →
      let a := wmul (i ^^^ Config.consts.c3) j
      let b := wmul (j ^^^ Config.consts.c4) k
      let c := wmul (k ^^^ Config.consts.c5) i
      exec .layerf s = .next { s with
        laneI := i ^^^ (a.1 ^^^ c.2), laneJ := j ^^^ (b.1 ^^^ a.2), laneK := k ^^^ (c.1 ^^^ b.2)
        phase := next }) ∧
    (fastOf s.op = true →
      let a := wmul i j
      let b := wmul j k
      let c := wmul k i
      exec .layerf s = .next { s with
        laneI := a.1 ^^^ c.2, laneJ := b.1 ^^^ a.2, laneK := c.1 ^^^ b.2
        phase := next })

/-- R141: EPIL64 in each mode; the sum wraps, `DIGEST1` is not written. -/
def Obligations.Epil64SumsRound : Prop :=
  ∀ s : State,
    let i := s.laneI
    let j := s.laneJ
    let k := s.laneK
    (fastOf s.op = false →
      let a := wmul (i ^^^ Config.consts.c0) j
      let b := wmul (j ^^^ Config.consts.c1) k
      let c := wmul (k ^^^ Config.consts.c2) i
      exec .epil64 s = .next { s with
        digest0 := (i ^^^ (a.1 ^^^ c.2)) + (j ^^^ (b.1 ^^^ a.2)) + (k ^^^ (c.1 ^^^ b.2))
        dvalid := true, busy := false, phase := 0b0000#4 }) ∧
    (fastOf s.op = true →
      let a := wmul i j
      let b := wmul j k
      let c := wmul k i
      exec .epil64 s = .next { s with
        digest0 := (a.1 ^^^ c.2) + (b.1 ^^^ a.2) + (c.1 ^^^ b.2)
        dvalid := true, busy := false, phase := 0b0000#4 })

/-- R142, C4: EPIL128 in each mode. -/
def Obligations.Epil128Recombines : Prop :=
  ∀ s : State,
    let i := s.laneI
    let j := s.laneJ
    let k := s.laneK
    (fastOf s.op = false →
      let a := wmul (i ^^^ Config.consts.c0) j
      let b := wmul (j ^^^ Config.consts.c1) k
      let c := wmul (k ^^^ Config.consts.c2) i
      exec .epil128 s = .next { s with
        digest0 := i ^^^ (a.1 ^^^ b.1 ^^^ c.2), digest1 := j ^^^ (a.2 ^^^ b.2 ^^^ c.1)
        dvalid := true, busy := false, phase := 0b0000#4 }) ∧
    (fastOf s.op = true →
      let a := wmul i j
      let b := wmul j k
      let c := wmul k i
      exec .epil128 s = .next { s with
        digest0 := a.1 ^^^ b.1 ^^^ c.2, digest1 := a.2 ^^^ b.2 ^^^ c.1
        dvalid := true, busy := false, phase := 0b0000#4 })

/-! ### Frames -/

/-- R54: no instruction writes memory: after any next state every byte reads as before. -/
def Obligations.EngineNeverWritesMessage : Prop :=
  ∀ (i : Instr) (s t : State), exec i s = .next t → ∀ x, t.msg.byte? x = s.msg.byte? x

/-- R26, R150: no phase but IDLE with START writes `OP`, `SEED` or `LEN`; the phases that do not end a
command leave the digest registers and the flags as they were; a phase's working registers are those
of the table of R20. -/
def Obligations.PhasesKeepOtherRegisters : Prop :=
  ∀ (x : Phase) (s t : State), (∀ c, s.request ≠ .start c) → exec x.instr s = .next t →
    t.op = s.op ∧ t.seed = s.seed ∧ t.len = s.len ∧
    t.unitIn = s.unitIn ∧ t.unitOut = s.unitOut ∧ t.freeCount = s.freeCount ∧
    t.request = s.request ∧
    (x ≠ .epis64 → x ≠ .epis128 → x ≠ .epil64 → x ≠ .epil128 →
      t.digest0 = s.digest0 ∧ t.busy = s.busy ∧ t.dvalid = s.dvalid) ∧
    (x ≠ .epis128 → x ≠ .epil128 → t.digest1 = s.digest1) ∧
    (x ≠ .init → x ≠ .blk96 → t.ring = s.ring) ∧
    (x ≠ .init → x ≠ .blk96 → x ≠ .blk48 → x ≠ .blk24 → t.p = s.p ∧ t.q = s.q) ∧
    (x ≠ .short → x ≠ .tail → x ≠ .layerf → t.laneI = s.laneI ∧ t.laneJ = s.laneJ) ∧
    (x ≠ .tail → x ≠ .layerf → t.laneK = s.laneK) ∧
    (x ≠ .init → x ≠ .blk96 → x ≠ .rclose → x ≠ .blk48 → x ≠ .blk24 → x ≠ .tail →
      t.lanes = s.lanes)

/-- R161: the host's placing of bytes, with no command in progress, puts each byte at its offset and
changes no other byte and no register (the slot is the model's own, log 3; that other bytes stay held is
its choice, log 17). -/
def Obligations.HostPlacesBytes : Prop :=
  ∀ (s : State) (base : Nat) (bs : List Byte), s.request = .place base bs → Ready s →
    ∃ t, step s = .next t ∧ t = { s with msg := t.msg, request := .none } ∧
      (∀ k, k < bs.length → base + k < 2 ^ 64 → t.msg.byte? (base + k) = bs[k]?) ∧
      (∀ x, x < base ∨ base + bs.length ≤ x ∨ 2 ^ 64 ≤ x → t.msg.byte? x = s.msg.byte? x)

/-- R193: while a command is in progress, placing bytes is refused exactly when it would change a byte
of `0 .. LEN-1`; else each byte is put at its offset, no byte below `LEN` and no other byte changes, and
no register (log 12, log 17). -/
def Obligations.MessageChangeRefused : Prop :=
  ∀ (s : State) (base : Nat) (bs : List Byte), s.request = .place base bs → s.busy = true →
    ((∃ k, k < bs.length ∧ base + k < s.len.toNat ∧ s.msg.byte? (base + k) ≠ bs[k]?) →
      step s = .refused .messageChanged) ∧
    (s.phase.toNat < 13 →
      (∀ k, k < bs.length → base + k < s.len.toNat → s.msg.byte? (base + k) = bs[k]?) →
      ∃ t, step s = .next t ∧ t = { s with msg := t.msg, request := .none } ∧
        (∀ x, x < s.len.toNat → t.msg.byte? x = s.msg.byte? x) ∧
        (∀ k, k < bs.length → base + k < 2 ^ 64 → t.msg.byte? (base + k) = bs[k]?) ∧
        (∀ x, x < base ∨ base + bs.length ≤ x ∨ 2 ^ 64 ≤ x → t.msg.byte? x = s.msg.byte? x))

/-! ### Faults -/

/-- R171: the rows that can raise `MsgFault` are the five phases that read, the commands that run
them, and the three readers alone. -/
def Obligations.OnlyReadersFault : Prop :=
  ∀ (i : Instr) (s : State) (e : Fault), exec i s = .fault e →
    i = .short ∨ i = .blk96 ∨ i = .blk48 ∨ i = .blk24 ∨ i = .tail ∨
    (∃ a, i = .rd32 a) ∨ (∃ a, i = .rd64 a) ∨ (∃ b n, i = .rdshort b n) ∨
    (∃ sd ln, ln ≠ 0 ∧ (i = .hash64 sd ln ∨ i = .hash64f sd ln ∨ i = .hash128 sd ln ∨
      i = .hash128f sd ln))

/-- R64, R171, R173: a block phase that reads faults at the lowest offset of its block that is not
held. -/
def Obligations.BlockReadsFaultAtLowest : Prop :=
  ∀ (s : State) (a : Nat),
    (FirstMissing s.msg s.p.toNat (s.p.toNat + 96) a → exec .blk96 s = .fault (.msgFault a)) ∧
    (48 ≤ s.q.toNat → FirstMissing s.msg s.p.toNat (s.p.toNat + 48) a →
      exec .blk48 s = .fault (.msgFault a)) ∧
    (24 ≤ s.q.toNat → FirstMissing s.msg s.p.toNat (s.p.toNat + 24) a →
      exec .blk24 s = .fault (.msgFault a))

/-- R64, R171, R173: SHORT and TAIL fault at the lowest missing offset of the first read that misses one,
the reads in the order of R57: SHORT over `0 .. LEN-1`, TAIL over `P .. P+Q-1`, in its three-word case
the two first words and then the last. -/
def Obligations.ShortReadsFaultAtFirst : Prop :=
  ∀ (s : State) (a : Nat),
    (s.len.toNat ≤ 16 → FaultsAt s.msg (shortReads 0 s.len.toNat) a →
      exec .short s = .fault (.msgFault a)) ∧
    (s.q.toNat ≤ 23 → FaultsAt s.msg (tailReads s.p.toNat s.q.toNat) a →
      exec .tail s = .fault (.msgFault a))

/-- R57, R171: in a state of the invariant a fault is at an offset below `LEN` that the memory does
not hold, in one of the five phases that read. -/
def Obligations.FaultIsMissingMessageByte : Prop :=
  ∀ (s : State) (a : Nat), Inv s → Quiet s → step s = .fault (.msgFault a) →
    a < s.len.toNat ∧ s.msg.has a = false ∧
    (s.phase = 0b0001#4 ∨ s.phase = 0b0101#4 ∨ s.phase = 0b0111#4 ∨ s.phase = 0b1000#4 ∨
      s.phase = 0b1001#4)

/-- R57, R171: in a state of the invariant whose message is held, no step stops. -/
def Obligations.HeldMessageNeverStops : Prop :=
  ∀ s : State, Inv s → Quiet s → Holds s.msg 0 s.len.toNat → ∃ t, step s = .next t

/-! ### The invariant -/

/-- R27, R33: the state after reset satisfies the invariant. -/
def Obligations.ResetSatisfiesInv : Prop := Inv State.reset

/-- R25, R27, R73, R126: every step keeps the invariant: the canonical form of the memory, `BUSY = 0`
if and only if `PHASE = IDLE`, `BUSY` and `DVALID` never both 1, `PHASE` one of the thirteen codes,
`P + Q = LEN` with the `Q` that each stage finds. It holds whatever the host presents. -/
def Obligations.StepKeepsInv : Prop :=
  ∀ s t : State, Inv s → step s = .next t → Inv t

/-! ### Commands -/

/-- R153 to R156, R7, log 1: the two grains agree: on every state, with any bytes held, a command as one
transaction answers what START and `stepCount` steps of the sequencer answer, fault or refusal
included. -/
def Obligations.GrainsAgree : Prop :=
  ∀ (s : State) (seed len : Word),
    exec (.hash64 seed len) s
      = runSteps (stepCount len) (s.presentStart ⟨0b00#2, seed, len⟩) ∧
    exec (.hash64f seed len) s
      = runSteps (stepCount len) (s.presentStart ⟨0b01#2, seed, len⟩) ∧
    exec (.hash128 seed len) s
      = runSteps (stepCount len) (s.presentStart ⟨0b10#2, seed, len⟩) ∧
    exec (.hash128f seed len) s
      = runSteps (stepCount len) (s.presentStart ⟨0b11#2, seed, len⟩)

/-- R157, R158: with START accepted and the message held every command completes: the digest is valid, the
operands are the command's, the message and the model's bench are as before. -/
def Obligations.CommandsComplete : Prop :=
  ∀ (s : State) (seed len : Word), Ready s → Holds s.msg 0 len.toNat →
    (∃ t, exec (.hash64 seed len) s = .next t ∧ Completed ⟨0b00#2, seed, len⟩ t ∧
      t.msg = s.msg ∧ t.unitIn = s.unitIn ∧ t.unitOut = s.unitOut ∧ t.request = .none) ∧
    (∃ t, exec (.hash64f seed len) s = .next t ∧ Completed ⟨0b01#2, seed, len⟩ t ∧
      t.msg = s.msg ∧ t.unitIn = s.unitIn ∧ t.unitOut = s.unitOut ∧ t.request = .none) ∧
    (∃ t, exec (.hash128 seed len) s = .next t ∧ Completed ⟨0b10#2, seed, len⟩ t ∧
      t.msg = s.msg ∧ t.unitIn = s.unitIn ∧ t.unitOut = s.unitOut ∧ t.request = .none) ∧
    (∃ t, exec (.hash128f seed len) s = .next t ∧ Completed ⟨0b11#2, seed, len⟩ t ∧
      t.msg = s.msg ∧ t.unitIn = s.unitIn ∧ t.unitOut = s.unitOut ∧ t.request = .none)

/-- R157, R158, R196, R197: at the phase grain a command with its message held is in progress after
each step before `stepCount` and completed after it. -/
def Obligations.RunCompletesInStepCount : Prop :=
  ∀ (s : State) (c : Command), Ready s → Holds s.msg 0 c.len.toNat →
    (∃ t, runSteps (stepCount c.len) (s.presentStart c) = .next t ∧ Completed c t) ∧
    ∀ k, 0 < k → k < stepCount c.len →
      ∃ u, runSteps k (s.presentStart c) = .next u ∧ u.busy = true ∧ u.dvalid = false

/-- R158, R20, R57: a command's digest depends on `OP`, `SEED`, `LEN` and the bytes below `LEN` alone:
two states that agree on these, whatever every register and every other byte holds, give the same
digest, or the same fault. -/
def Obligations.DigestDependsOnInputsOnly : Prop :=
  ∀ (op : BitVec 2) (seed len : Word) (s s' : State),
    Ready s → Ready s' → AgreeBelow s.msg s'.msg len.toNat →
    (∀ t, exec (commandInstr op seed len) s = .next t →
      ∃ t', exec (commandInstr op seed len) s' = .next t' ∧ t'.digest0 = t.digest0 ∧
        (wideOf op = true → t'.digest1 = t.digest1)) ∧
    (∀ e, exec (commandInstr op seed len) s = .fault e →
      exec (commandInstr op seed len) s' = .fault e)

/-- R113, C5: for lengths 0 to 16 the 64-bit digest does not depend on the mode. -/
def Obligations.ShortDigestIgnoresMode : Prop :=
  ∀ (s : State) (seed len : Word), len.toNat ≤ 16 → Ready s → Holds s.msg 0 len.toNat →
    ∃ t t', exec (.hash64 seed len) s = .next t ∧ exec (.hash64f seed len) s = .next t' ∧
      t.digest0 = t'.digest0

/-- R57, R110 to R112, R153 to R156: the empty message: no byte is needed, and each command's digest is
what its epilogue gives from the one multiply of SHORT on the seed. -/
def Obligations.EmptyMessageDigest : Prop :=
  ∀ (s : State) (seed : Word), Ready s →
    let c := Config.consts
    let m := wmul (seed ^^^ c.c0) c.c1
    let i := m.1
    let j := m.2 ^^^ seed
    let n1 := wmul (i ^^^ c.c2) (j ^^^ c.c3)
    let i2 := i ^^^ c.c2 ^^^ n1.1 ^^^ c.c4
    let j2 := j ^^^ c.c3 ^^^ n1.2 ^^^ c.c5
    let n2 := wmul i2 j2
    let a := wmul (i ^^^ c.c2) j
    let b := wmul i (j ^^^ c.c3)
    let x := i ^^^ a.1 ^^^ b.2
    let y := j ^^^ b.1 ^^^ a.2
    let a' := wmul (x ^^^ c.c4) y
    let b' := wmul x (y ^^^ c.c5)
    let f := wmul i j
    let g := wmul (i ^^^ c.c2) (j ^^^ c.c3)
    let u := f.1 ^^^ g.2
    let v := g.1 ^^^ f.2
    let f' := wmul u v
    let g' := wmul (u ^^^ c.c4) (v ^^^ c.c5)
    (∃ t, exec (.hash64 seed 0) s = .next t ∧ t.dvalid = true ∧
      t.digest0 = i2 ^^^ j2 ^^^ n2.1 ^^^ n2.2) ∧
    (∃ t, exec (.hash64f seed 0) s = .next t ∧ t.dvalid = true ∧
      t.digest0 = i2 ^^^ j2 ^^^ n2.1 ^^^ n2.2) ∧
    (∃ t, exec (.hash128 seed 0) s = .next t ∧ t.dvalid = true ∧
      t.digest0 = x ^^^ a'.1 ^^^ b'.2 ∧ t.digest1 = y ^^^ b'.1 ^^^ a'.2) ∧
    (∃ t, exec (.hash128f seed 0) s = .next t ∧ t.dvalid = true ∧
      t.digest0 = f'.1 ^^^ g'.2 ∧ t.digest1 = g'.1 ^^^ f'.2)

/-- R126: which stages consume a block, by total length: BLK96 runs `floor(LEN/96)` times, then BLK48
finds `Q = LEN mod 96`, BLK24 what 48 leaves of it, TAIL `Q = LEN mod 24`. -/
def Obligations.StagesConsumeByLength : Prop :=
  ∀ (s : State) (c : Command), Ready s → 16 < c.len.toNat → Holds s.msg 0 c.len.toNat →
    let n := c.len.toNat
    let k := 2 + n / 96 + (if n ≥ 96 then 1 else 0)
    (∀ m, m < n / 96 → ∃ u, runSteps (2 + m) (s.presentStart c) = .next u ∧
      u.phase = 0b0101#4 ∧ u.p.toNat = 96 * m ∧ u.q.toNat = n - 96 * m) ∧
    (∃ u, runSteps k (s.presentStart c) = .next u ∧
      u.phase = 0b0111#4 ∧ u.q.toNat = n % 96 ∧ u.p.toNat + u.q.toNat = n) ∧
    (∃ u, runSteps (k + 1) (s.presentStart c) = .next u ∧
      u.phase = 0b1000#4 ∧ u.q.toNat = n % 96 % 48 ∧ u.p.toNat + u.q.toNat = n) ∧
    (∃ u, runSteps (k + 2) (s.presentStart c) = .next u ∧
      u.phase = 0b1001#4 ∧ u.q.toNat = n % 24 ∧ u.p.toNat + u.q.toNat = n)

/-- R78: the bytes of a digest: `DIGEST0` little-endian, for a 128-bit command followed by `DIGEST1`,
together the 16 bytes of `DIGEST1 * 2^64 + DIGEST0`. -/
def Obligations.DigestBytesLowWordFirst : Prop :=
  ∀ s : State,
    (wideOf s.op = true →
      s.digestBytes = leBytes 16 (s.digest1.toNat * 2 ^ 64 + s.digest0.toNat)) ∧
    (wideOf s.op = false → s.digestBytes.length = 8 ∧ leNat s.digestBytes = s.digest0.toNat)

/-! ### The host, the bench, the constants -/

/-- R32, R194: the host sees `BUSY` and `DVALID` at any time, `DIGEST0` exactly while `DVALID = 1`, and
`DIGEST1` only where moreover the command has a 128-bit digest; the view has no value elsewhere (log 13). -/
def Obligations.HostSeesDigestWhenValid : Prop :=
  ∀ s : State, s.hostView.busy = s.busy ∧ s.hostView.dvalid = s.dvalid ∧
    (s.dvalid = false → s.hostView.digest0 = none ∧ s.hostView.digest1 = none) ∧
    (s.dvalid = true → s.hostView.digest0 = some s.digest0 ∧
      (wideOf s.op = true → s.hostView.digest1 = some s.digest1) ∧
      (wideOf s.op = false → s.hostView.digest1 = none))

/-- R75: the host cannot invoke a unit function: with the model's bench empty a step leaves it empty and
applies none, whatever the host presents (log 4). -/
def Obligations.HostInvokesNoUnit : Prop :=
  ∀ s t : State, s.unitIn = none → step s = .next t → t.unitIn = none ∧ t.unitOut = s.unitOut

/-- R77, R160, R20: a program of commands whose messages the host places runs to the end of its last
command, one digest for each command, the same from every engine that accepts START, whatever it holds;
a command that faults ends the run there. -/
def Obligations.ProgramRunsToItsEnd : Prop :=
  (∀ (p : Program) (ds : List (List Byte)) (s s' : State), Ready s → Ready s' →
    (∀ job ∈ p, ∀ xs, (job xs).len.toNat ≤ (job xs).bytes.length) →
    ∃ out t t', runProgram p ds s = .completed (ds ++ out) t ∧
      runProgram p ds s' = .completed (ds ++ out) t' ∧ out.length = p.length ∧ Ready t ∧ Ready t') ∧
  (∀ (job : List (List Byte) → Job) (p : Program) (ds : List (List Byte)) (s : State) (a : Nat),
    (job ds).run s = .fault (.msgFault a) → runProgram (job :: p) ds s = .faulted a)

/-- R8, R9, U11: the machine takes its constants as an argument, and is the machine of this package at
the default values of R28 (log 8). -/
def Obligations.MachineAtDefaultConstants : Prop :=
  (∀ (i : Instr) (s : State), exec i s = execWith Config.consts i s) ∧
  (∀ s : State, step s = stepWith Config.consts s) ∧ Sys2Proof.core = coreWith Config.consts

/-- R143: which phase reads which constant: what a phase does is the same for any two values of the
constants that agree on those of its row; in fast mode LAYERF and the long epilogues read none. -/
def Obligations.ConstantsReadByPhase : Prop :=
  ∀ (k k' : Config.Consts) (s : State),
    (k.c0 = k'.c0 → k.c1 = k'.c1 → execWith k .short s = execWith k' .short s) ∧
    (k.c2 = k'.c2 → k.c3 = k'.c3 → k.c4 = k'.c4 → k.c5 = k'.c5 →
      execWith k .epis64 s = execWith k' .epis64 s ∧
      execWith k .epis128 s = execWith k' .epis128 s) ∧
    (execWith k .blk96 s = execWith k' .blk96 s ∧ execWith k .rclose s = execWith k' .rclose s ∧
      execWith k .blk48 s = execWith k' .blk48 s ∧ execWith k .blk24 s = execWith k' .blk24 s ∧
      execWith k .tail s = execWith k' .tail s) ∧
    (fastOf s.op = true ∨ (k.c3 = k'.c3 ∧ k.c4 = k'.c4 ∧ k.c5 = k'.c5) →
      execWith k .layerf s = execWith k' .layerf s) ∧
    (fastOf s.op = true ∨ (k.c0 = k'.c0 ∧ k.c1 = k'.c1 ∧ k.c2 = k'.c2) →
      execWith k .epil64 s = execWith k' .epil64 s ∧
      execWith k .epil128 s = execWith k' .epil128 s)

/-- R9, R157, R158, R7: for any constants every command on a held message completes, and as one
transaction it is the counted run of the machine of those constants. -/
def Obligations.AnyConstantsComplete : Prop :=
  ∀ (k : Config.Consts) (op : BitVec 2) (seed len : Word) (s : State),
    Ready s → Holds s.msg 0 len.toNat →
    ∃ t, execWith k (commandInstr op seed len) s = .next t ∧ Completed ⟨op, seed, len⟩ t ∧
      runOf (stepWith k) (stepCount len) (s.presentStart ⟨op, seed, len⟩) = .next t
end

