-- ==== Sys2Proof/Laws/Memory.lean ====
section
/-! SUPPORT. What the operations over the message space can do: a byte written reads back and no
other byte changes, every operation keeps the canonical form, and a read gives the number of R52 or
faults at the lowest offset not held. -/

namespace Sys2Proof.Laws

open Sys2Proof.Machine

/-! ### Reads in sequence -/

@[simp] theorem bind_ok {α β : Type} (v : α) (f : α → Except Fault β) :
    (Except.ok v >>= f) = f v := rfl

@[simp] theorem bind_error {α β : Type} (e : Fault) (f : α → Except Fault β) :
    ((Except.error e : Except Fault α) >>= f) = .error e := rfl

@[simp] theorem pure_ok {α : Type} (v : α) : (pure v : Except Fault α) = .ok v := rfl

/-- A sequence of reads faults at its first read or after it. -/
theorem bind_eq_error {α β : Type} {r : Except Fault α} {f : α → Except Fault β} {e : Fault}
    (h : (r >>= f) = .error e) : r = .error e ∨ ∃ v, r = .ok v ∧ f v = .error e := by
  cases r with
  | ok v => exact .inr ⟨v, rfl, h⟩
  | error e' => exact .inl (by rw [bind_error] at h; injection h with h; rw [h])

/-- A sequence of reads succeeds only if each does. -/
theorem bind_eq_ok {α β : Type} {r : Except Fault α} {f : α → Except Fault β} {w : β}
    (h : (r >>= f) = .ok w) : ∃ v, r = .ok v ∧ f v = .ok w := by
  cases r with
  | ok v => exact ⟨v, rfl, h⟩
  | error e' => cases h

/-! ### Writing -/

theorem byte?_insert (m : Mem) (a x : Nat) (b : Byte) :
    (Mem.insert a b m).byte? x = if x = a then some b else m.byte? x := by
  induction m with
  | nil =>
    by_cases h : x = a
    · simp [Mem.insert, Mem.byte?, h]
    · simp [Mem.insert, Mem.byte?, h, Ne.symm h]
  | cons e m ih =>
    obtain ⟨k, c⟩ := e
    by_cases hlt : a < k
    · by_cases h : x = a
      · simp [Mem.insert, Mem.byte?, hlt, h]
      · simp [Mem.insert, Mem.byte?, hlt, h, Ne.symm h]
    · by_cases hk : a = k
      · subst hk
        by_cases h : x = a
        · simp [Mem.insert, Mem.byte?, h]
        · simp [Mem.insert, Mem.byte?, h, Ne.symm h]
      · by_cases h : x = a
        · subst h
          simp [Mem.insert, Mem.byte?, hlt, hk, Ne.symm hk, ih]
        · simp [Mem.insert, Mem.byte?, hlt, hk, h, ih]

/-- A byte written reads back, if its offset is one of 64 bits; every other byte reads as before. -/
theorem byte?_write (m : Mem) (a x : Nat) (b : Byte) :
    (m.write a b).byte? x = if x = a ∧ a < 2 ^ 64 then some b else m.byte? x := by
  unfold Mem.write
  by_cases h : a < 2 ^ 64
  · rw [if_pos h, byte?_insert]
    by_cases hx : x = a
    · rw [if_pos hx, if_pos ⟨hx, h⟩]
    · rw [if_neg hx, if_neg fun k => hx k.1]
  · rw [if_neg h, if_neg fun k => h k.2]

theorem rising_mono {m : Mem} {lo hi : Nat} (h : lo ≤ hi) (hm : Mem.rising hi m = true) :
    Mem.rising lo m = true := by
  cases m with
  | nil => rfl
  | cons e m =>
    obtain ⟨k, c⟩ := e
    simp only [Mem.rising, Bool.and_eq_true, decide_eq_true_eq] at hm ⊢
    exact ⟨⟨by omega, hm.1.2⟩, hm.2⟩

theorem rising_insert (m : Mem) (a lo : Nat) (b : Byte) (ha : a < 2 ^ 64) (hlo : lo ≤ a)
    (hm : Mem.rising lo m = true) : Mem.rising lo (Mem.insert a b m) = true := by
  induction m generalizing lo with
  | nil =>
    simp only [Mem.insert, Mem.rising, Bool.and_true, Bool.and_eq_true, decide_eq_true_eq]
    exact ⟨hlo, ha⟩
  | cons e m ih =>
    obtain ⟨k, c⟩ := e
    simp only [Mem.rising, Bool.and_eq_true, decide_eq_true_eq] at hm
    by_cases hlt : a < k
    · simp only [Mem.insert, if_pos hlt, Mem.rising, Bool.and_eq_true, decide_eq_true_eq]
      exact ⟨⟨hlo, ha⟩, ⟨by omega, hm.1.2⟩, hm.2⟩
    · by_cases hk : a = k
      · subst hk
        simp only [Mem.insert, if_neg hlt, if_true, Mem.rising, Bool.and_eq_true,
          decide_eq_true_eq]
        exact ⟨⟨hlo, ha⟩, hm.2⟩
      · simp only [Mem.insert, if_neg hlt, if_neg hk, Mem.rising, Bool.and_eq_true,
          decide_eq_true_eq]
        exact ⟨hm.1, ih (k + 1) (by omega) hm.2⟩

/-- Writing one byte keeps the canonical form. -/
theorem write_wf (m : Mem) (a : Nat) (b : Byte) (hm : m.wf = true) : (m.write a b).wf = true := by
  unfold Mem.write
  by_cases h : a < 2 ^ 64
  · rw [if_pos h]
    exact rising_insert m a 0 b h (Nat.zero_le a) hm
  · rwa [if_neg h]

/-- Placing bytes keeps the canonical form. -/
theorem writes_wf (bs : List Byte) (m : Mem) (a : Nat) (hm : m.wf = true) :
    (m.writes a bs).wf = true := by
  induction bs generalizing m a with
  | nil => exact hm
  | cons b bs ih => exact ih _ _ (write_wf m a b hm)

/-- The memory after reset has the canonical form. -/
theorem reset_msg_wf : State.reset.msg.wf = true := rfl

/-! ### Reading -/

theorem has_eq_true_iff (m : Mem) (x : Nat) : m.has x = true ↔ ∃ b, m.byte? x = some b := by
  simp [Mem.has, Option.isSome_iff_exists]

theorem has_eq_false_iff (m : Mem) (x : Nat) : m.has x = false ↔ m.byte? x = none := by
  simp [Mem.has]

theorem msgByte_lt (m : Mem) (x : Nat) : msgByte m x < 256 := by
  unfold msgByte
  split
  · exact BitVec.isLt _
  · decide

theorem msgLE_zero (m : Mem) (a : Nat) : msgLE m a 0 = 0 := rfl

/-- The sum of R52, lowest byte first. -/
theorem msgLE_succ (m : Mem) (a n : Nat) :
    msgLE m a (n + 1) = msgByte m a + 256 * msgLE m (a + 1) n := by
  unfold msgLE
  rw [Finset.sum_range_succ', Finset.mul_sum, Nat.add_comm]
  congr 1
  · simp
  · refine Finset.sum_congr rfl fun b _ => ?_
    rw [show a + (b + 1) = a + 1 + b by omega, show 8 * (b + 1) = 8 * b + 8 by omega, pow_add]
    ring

theorem msgLE_one (m : Mem) (a : Nat) : msgLE m a 1 = msgByte m a := by
  rw [msgLE_succ, msgLE_zero]; omega

theorem msgLE_lt (m : Mem) (a n : Nat) : msgLE m a n < 256 ^ n := by
  induction n generalizing a with
  | zero => simp [msgLE_zero]
  | succ n ih =>
    have h1 := msgByte_lt m a
    have h2 := ih (a + 1)
    rw [msgLE_succ, pow_succ]
    omega

/-- A read of bytes that are all held: the number of R52. -/
theorem memRead_of_holds (m : Mem) (a n : Nat) (h : Holds m a (a + n)) :
    memRead m a n = .ok (msgLE m a n) := by
  have key : ∀ n a, Holds m a (a + n) →
      ∃ bs, readBytes m a n = .ok bs ∧ leNat bs = msgLE m a n := by
    intro n
    induction n with
    | zero => exact fun a _ => ⟨[], rfl, rfl⟩
    | succ n ih =>
      intro a h
      obtain ⟨b, hb⟩ := (has_eq_true_iff m a).1 (h a (Nat.le_refl a) (by omega))
      obtain ⟨bs, hr, hv⟩ := ih (a + 1) fun x h1 h2 => h x (by omega) (by omega)
      refine ⟨b :: bs, by simp [readBytes, hb, hr], ?_⟩
      rw [msgLE_succ, leNat, hv]
      simp [msgByte, hb]
  obtain ⟨bs, hr, hv⟩ := key n a h
  simp [memRead, hr, hv]

/-- A read of bytes not all held faults at the lowest offset not held (R171). -/
theorem memRead_of_missing (m : Mem) (a n x : Nat) (h : FirstMissing m a (a + n) x) :
    memRead m a n = .error (.msgFault x) := by
  have key : ∀ n a, FirstMissing m a (a + n) x → readBytes m a n = .error (.msgFault x) := by
    intro n
    induction n with
    | zero => intro a h; exact absurd h.2.1 (by have := h.1; omega)
    | succ n ih =>
      intro a ⟨h1, h2, h3, h4⟩
      by_cases hx : x = a
      · subst hx
        simp [readBytes, (has_eq_false_iff m x).1 h3]
      · obtain ⟨b, hb⟩ := (has_eq_true_iff m a).1 (h4 a (Nat.le_refl a) (by omega))
        have := ih (a + 1) ⟨by omega, by omega, h3, fun y k1 k2 => h4 y (by omega) k2⟩
        simp [readBytes, hb, this]
  simp [memRead, key n a h]

/-- Every range is held, or has a lowest offset not held. -/
theorem holds_or_missing (m : Mem) (a n : Nat) :
    Holds m a (a + n) ∨ ∃ x, FirstMissing m a (a + n) x := by
  induction n with
  | zero => exact .inl fun x h1 h2 => absurd h2 (by omega)
  | succ n ih =>
    rcases ih with h | ⟨x, h1, h2, h3, h4⟩
    · cases hb : m.has (a + n) with
      | true =>
        refine .inl fun x k1 k2 => ?_
        by_cases hx : x = a + n
        · exact hx ▸ hb
        · exact h x k1 (by omega)
      | false => exact .inr ⟨a + n, by omega, by omega, hb, h⟩
    · exact .inr ⟨x, h1, by omega, h3, h4⟩

/-- Everything a read can answer (R52, R56). -/
theorem memRead_cases (m : Mem) (a n : Nat) :
    (Holds m a (a + n) ∧ memRead m a n = .ok (msgLE m a n)) ∨
    ∃ x, FirstMissing m a (a + n) x ∧ memRead m a n = .error (.msgFault x) := by
  rcases holds_or_missing m a n with h | ⟨x, h⟩
  · exact .inl ⟨h, memRead_of_holds m a n h⟩
  · exact .inr ⟨x, h, memRead_of_missing m a n x h⟩

theorem rd64_of_holds (m : Mem) (a : Nat) (h : Holds m a (a + 8)) :
    rd64 m a = .ok (msgWord m a 8) := by
  simp [rd64, memRead_of_holds m a 8 h, msgWord]

theorem rd32_of_holds (m : Mem) (a : Nat) (h : Holds m a (a + 4)) :
    rd32 m a = .ok (msgWord m a 4) := by
  simp [rd32, memRead_of_holds m a 4 h, msgWord]

theorem rd8_of_holds (m : Mem) (a : Nat) (h : m.has a = true) :
    rd8 m a = .ok (BitVec.ofNat 64 (msgByte m a)) := by
  have hh : Holds m a (a + 1) := fun x h1 h2 => (show x = a by omega) ▸ h
  simp [rd8, memRead_of_holds m a 1 hh, msgLE_one]

/-- Everything a 64-bit read can answer. -/
theorem rd64_cases (m : Mem) (a : Nat) :
    (Holds m a (a + 8) ∧ rd64 m a = .ok (msgWord m a 8)) ∨
    ∃ x, FirstMissing m a (a + 8) x ∧ rd64 m a = .error (.msgFault x) := by
  rcases memRead_cases m a 8 with ⟨h, _⟩ | ⟨x, h, hr⟩
  · exact .inl ⟨h, rd64_of_holds m a h⟩
  · exact .inr ⟨x, h, by simp [rd64, hr]⟩

/-- Everything a 32-bit read can answer. -/
theorem rd32_cases (m : Mem) (a : Nat) :
    (Holds m a (a + 4) ∧ rd32 m a = .ok (msgWord m a 4)) ∨
    ∃ x, FirstMissing m a (a + 4) x ∧ rd32 m a = .error (.msgFault x) := by
  rcases memRead_cases m a 4 with ⟨h, _⟩ | ⟨x, h, hr⟩
  · exact .inl ⟨h, rd32_of_holds m a h⟩
  · exact .inr ⟨x, h, by simp [rd32, hr]⟩

/-- Everything a read of one byte can answer. -/
theorem rd8_cases (m : Mem) (a : Nat) :
    (m.has a = true ∧ rd8 m a = .ok (BitVec.ofNat 64 (msgByte m a))) ∨
    (m.has a = false ∧ rd8 m a = .error (.msgFault a)) := by
  cases h : m.has a with
  | true => exact .inl ⟨rfl, rd8_of_holds m a h⟩
  | false =>
    have hm : FirstMissing m a (a + 1) a :=
      ⟨Nat.le_refl a, by omega, h, fun x h1 h2 => absurd h2 (by omega)⟩
    exact .inr ⟨rfl, by simp [rd8, memRead_of_missing m a 1 a hm]⟩

/-- Two memories with the same bytes give the same reads. -/
theorem memRead_congr (m m' : Mem) (a n : Nat)
    (h : ∀ x, a ≤ x → x < a + n → m.byte? x = m'.byte? x) : memRead m a n = memRead m' a n := by
  have key : ∀ n a, (∀ x, a ≤ x → x < a + n → m.byte? x = m'.byte? x) →
      readBytes m a n = readBytes m' a n := by
    intro n
    induction n with
    | zero => exact fun a _ => rfl
    | succ n ih =>
      intro a h
      simp only [readBytes]
      rw [h a (Nat.le_refl a) (by omega), ih (a + 1) fun x h1 h2 => h x (by omega) (by omega)]
  simp [memRead, key n a h]

end Sys2Proof.Laws
end

