-- ==== Sys2Proof/Laws/State.lean ====
section
/-! SUPPORT. One lemma per field per named update of the state, and of the lanes: no later proof
unfolds a record update. -/

namespace Sys2Proof.Laws

open Sys2Proof.Machine

/-! ### `State.setPhase` -/

@[simp] theorem setPhase_lanes (s : State) (x : Phase) : (s.setPhase x).lanes = s.lanes := rfl
@[simp] theorem setPhase_laneI (s : State) (x : Phase) : (s.setPhase x).laneI = s.laneI := rfl
@[simp] theorem setPhase_laneJ (s : State) (x : Phase) : (s.setPhase x).laneJ = s.laneJ := rfl
@[simp] theorem setPhase_laneK (s : State) (x : Phase) : (s.setPhase x).laneK = s.laneK := rfl
@[simp] theorem setPhase_ring (s : State) (x : Phase) : (s.setPhase x).ring = s.ring := rfl
@[simp] theorem setPhase_phase (s : State) (x : Phase) : (s.setPhase x).phase = x.code := rfl
@[simp] theorem setPhase_p (s : State) (x : Phase) : (s.setPhase x).p = s.p := rfl
@[simp] theorem setPhase_q (s : State) (x : Phase) : (s.setPhase x).q = s.q := rfl
@[simp] theorem setPhase_op (s : State) (x : Phase) : (s.setPhase x).op = s.op := rfl
@[simp] theorem setPhase_seed (s : State) (x : Phase) : (s.setPhase x).seed = s.seed := rfl
@[simp] theorem setPhase_len (s : State) (x : Phase) : (s.setPhase x).len = s.len := rfl
@[simp] theorem setPhase_digest0 (s : State) (x : Phase) : (s.setPhase x).digest0 = s.digest0 := rfl
@[simp] theorem setPhase_digest1 (s : State) (x : Phase) : (s.setPhase x).digest1 = s.digest1 := rfl
@[simp] theorem setPhase_dvalid (s : State) (x : Phase) : (s.setPhase x).dvalid = s.dvalid := rfl
@[simp] theorem setPhase_busy (s : State) (x : Phase) : (s.setPhase x).busy = s.busy := rfl
@[simp] theorem setPhase_msg (s : State) (x : Phase) : (s.setPhase x).msg = s.msg := rfl
@[simp] theorem setPhase_request (s : State) (x : Phase) : (s.setPhase x).request = s.request := rfl
@[simp] theorem setPhase_unitIn (s : State) (x : Phase) : (s.setPhase x).unitIn = s.unitIn := rfl
@[simp] theorem setPhase_unitOut (s : State) (x : Phase) : (s.setPhase x).unitOut = s.unitOut := rfl
@[simp] theorem setPhase_freeCount (s : State) (x : Phase) : (s.setPhase x).freeCount = s.freeCount := rfl

/-! ### `State.retire` -/

@[simp] theorem retire_lanes (s : State) : (s.retire).lanes = s.lanes := rfl
@[simp] theorem retire_laneI (s : State) : (s.retire).laneI = s.laneI := rfl
@[simp] theorem retire_laneJ (s : State) : (s.retire).laneJ = s.laneJ := rfl
@[simp] theorem retire_laneK (s : State) : (s.retire).laneK = s.laneK := rfl
@[simp] theorem retire_ring (s : State) : (s.retire).ring = s.ring := rfl
@[simp] theorem retire_phase (s : State) : (s.retire).phase = s.phase := rfl
@[simp] theorem retire_p (s : State) : (s.retire).p = s.p := rfl
@[simp] theorem retire_q (s : State) : (s.retire).q = s.q := rfl
@[simp] theorem retire_op (s : State) : (s.retire).op = s.op := rfl
@[simp] theorem retire_seed (s : State) : (s.retire).seed = s.seed := rfl
@[simp] theorem retire_len (s : State) : (s.retire).len = s.len := rfl
@[simp] theorem retire_digest0 (s : State) : (s.retire).digest0 = s.digest0 := rfl
@[simp] theorem retire_digest1 (s : State) : (s.retire).digest1 = s.digest1 := rfl
@[simp] theorem retire_dvalid (s : State) : (s.retire).dvalid = s.dvalid := rfl
@[simp] theorem retire_busy (s : State) : (s.retire).busy = s.busy := rfl
@[simp] theorem retire_msg (s : State) : (s.retire).msg = s.msg := rfl
@[simp] theorem retire_request (s : State) : (s.retire).request = .none := rfl
@[simp] theorem retire_unitIn (s : State) : (s.retire).unitIn = s.unitIn := rfl
@[simp] theorem retire_unitOut (s : State) : (s.retire).unitOut = s.unitOut := rfl
@[simp] theorem retire_freeCount (s : State) : (s.retire).freeCount = s.freeCount := rfl

/-! ### `State.setUnitOut` -/

@[simp] theorem setUnitOut_lanes (s : State) (u : UnitOut) : (s.setUnitOut u).lanes = s.lanes := rfl
@[simp] theorem setUnitOut_laneI (s : State) (u : UnitOut) : (s.setUnitOut u).laneI = s.laneI := rfl
@[simp] theorem setUnitOut_laneJ (s : State) (u : UnitOut) : (s.setUnitOut u).laneJ = s.laneJ := rfl
@[simp] theorem setUnitOut_laneK (s : State) (u : UnitOut) : (s.setUnitOut u).laneK = s.laneK := rfl
@[simp] theorem setUnitOut_ring (s : State) (u : UnitOut) : (s.setUnitOut u).ring = s.ring := rfl
@[simp] theorem setUnitOut_phase (s : State) (u : UnitOut) : (s.setUnitOut u).phase = s.phase := rfl
@[simp] theorem setUnitOut_p (s : State) (u : UnitOut) : (s.setUnitOut u).p = s.p := rfl
@[simp] theorem setUnitOut_q (s : State) (u : UnitOut) : (s.setUnitOut u).q = s.q := rfl
@[simp] theorem setUnitOut_op (s : State) (u : UnitOut) : (s.setUnitOut u).op = s.op := rfl
@[simp] theorem setUnitOut_seed (s : State) (u : UnitOut) : (s.setUnitOut u).seed = s.seed := rfl
@[simp] theorem setUnitOut_len (s : State) (u : UnitOut) : (s.setUnitOut u).len = s.len := rfl
@[simp] theorem setUnitOut_digest0 (s : State) (u : UnitOut) : (s.setUnitOut u).digest0 = s.digest0 := rfl
@[simp] theorem setUnitOut_digest1 (s : State) (u : UnitOut) : (s.setUnitOut u).digest1 = s.digest1 := rfl
@[simp] theorem setUnitOut_dvalid (s : State) (u : UnitOut) : (s.setUnitOut u).dvalid = s.dvalid := rfl
@[simp] theorem setUnitOut_busy (s : State) (u : UnitOut) : (s.setUnitOut u).busy = s.busy := rfl
@[simp] theorem setUnitOut_msg (s : State) (u : UnitOut) : (s.setUnitOut u).msg = s.msg := rfl
@[simp] theorem setUnitOut_request (s : State) (u : UnitOut) : (s.setUnitOut u).request = s.request := rfl
@[simp] theorem setUnitOut_unitIn (s : State) (u : UnitOut) : (s.setUnitOut u).unitIn = none := rfl
@[simp] theorem setUnitOut_unitOut (s : State) (u : UnitOut) : (s.setUnitOut u).unitOut = u := rfl
@[simp] theorem setUnitOut_freeCount (s : State) (u : UnitOut) : (s.setUnitOut u).freeCount = s.freeCount := rfl

/-! ### `State.loseDigest` -/

@[simp] theorem loseDigest_lanes (s : State) : (s.loseDigest).lanes = s.lanes := rfl
@[simp] theorem loseDigest_laneI (s : State) : (s.loseDigest).laneI = s.laneI := rfl
@[simp] theorem loseDigest_laneJ (s : State) : (s.loseDigest).laneJ = s.laneJ := rfl
@[simp] theorem loseDigest_laneK (s : State) : (s.loseDigest).laneK = s.laneK := rfl
@[simp] theorem loseDigest_ring (s : State) : (s.loseDigest).ring = s.ring := rfl
@[simp] theorem loseDigest_phase (s : State) : (s.loseDigest).phase = s.phase := rfl
@[simp] theorem loseDigest_p (s : State) : (s.loseDigest).p = s.p := rfl
@[simp] theorem loseDigest_q (s : State) : (s.loseDigest).q = s.q := rfl
@[simp] theorem loseDigest_op (s : State) : (s.loseDigest).op = s.op := rfl
@[simp] theorem loseDigest_seed (s : State) : (s.loseDigest).seed = s.seed := rfl
@[simp] theorem loseDigest_len (s : State) : (s.loseDigest).len = s.len := rfl
@[simp] theorem loseDigest_digest0 (s : State) : (s.loseDigest).digest0 = Config.freeWord s.freeCount := rfl
@[simp] theorem loseDigest_digest1 (s : State) : (s.loseDigest).digest1 = Config.freeWord (s.freeCount + 1) := rfl
@[simp] theorem loseDigest_dvalid (s : State) : (s.loseDigest).dvalid = s.dvalid := rfl
@[simp] theorem loseDigest_busy (s : State) : (s.loseDigest).busy = s.busy := rfl
@[simp] theorem loseDigest_msg (s : State) : (s.loseDigest).msg = s.msg := rfl
@[simp] theorem loseDigest_request (s : State) : (s.loseDigest).request = s.request := rfl
@[simp] theorem loseDigest_unitIn (s : State) : (s.loseDigest).unitIn = s.unitIn := rfl
@[simp] theorem loseDigest_unitOut (s : State) : (s.loseDigest).unitOut = s.unitOut := rfl
@[simp] theorem loseDigest_freeCount (s : State) : (s.loseDigest).freeCount = s.freeCount + 2 := rfl

/-! ### `State.flagsAtStart` -/

@[simp] theorem flagsAtStart_lanes (s : State) : (s.flagsAtStart).lanes = s.lanes := rfl
@[simp] theorem flagsAtStart_laneI (s : State) : (s.flagsAtStart).laneI = s.laneI := rfl
@[simp] theorem flagsAtStart_laneJ (s : State) : (s.flagsAtStart).laneJ = s.laneJ := rfl
@[simp] theorem flagsAtStart_laneK (s : State) : (s.flagsAtStart).laneK = s.laneK := rfl
@[simp] theorem flagsAtStart_ring (s : State) : (s.flagsAtStart).ring = s.ring := rfl
@[simp] theorem flagsAtStart_phase (s : State) : (s.flagsAtStart).phase = s.phase := rfl
@[simp] theorem flagsAtStart_p (s : State) : (s.flagsAtStart).p = s.p := rfl
@[simp] theorem flagsAtStart_q (s : State) : (s.flagsAtStart).q = s.q := rfl
@[simp] theorem flagsAtStart_op (s : State) : (s.flagsAtStart).op = s.op := rfl
@[simp] theorem flagsAtStart_seed (s : State) : (s.flagsAtStart).seed = s.seed := rfl
@[simp] theorem flagsAtStart_len (s : State) : (s.flagsAtStart).len = s.len := rfl
@[simp] theorem flagsAtStart_digest0 (s : State) : (s.flagsAtStart).digest0 = s.digest0 := rfl
@[simp] theorem flagsAtStart_digest1 (s : State) : (s.flagsAtStart).digest1 = s.digest1 := rfl
@[simp] theorem flagsAtStart_dvalid (s : State) : (s.flagsAtStart).dvalid = false := rfl
@[simp] theorem flagsAtStart_busy (s : State) : (s.flagsAtStart).busy = true := rfl
@[simp] theorem flagsAtStart_msg (s : State) : (s.flagsAtStart).msg = s.msg := rfl
@[simp] theorem flagsAtStart_request (s : State) : (s.flagsAtStart).request = s.request := rfl
@[simp] theorem flagsAtStart_unitIn (s : State) : (s.flagsAtStart).unitIn = s.unitIn := rfl
@[simp] theorem flagsAtStart_unitOut (s : State) : (s.flagsAtStart).unitOut = s.unitOut := rfl
@[simp] theorem flagsAtStart_freeCount (s : State) : (s.flagsAtStart).freeCount = s.freeCount := rfl

/-! ### `State.complete` -/

@[simp] theorem complete_lanes (s : State) : (s.complete).lanes = s.lanes := rfl
@[simp] theorem complete_laneI (s : State) : (s.complete).laneI = s.laneI := rfl
@[simp] theorem complete_laneJ (s : State) : (s.complete).laneJ = s.laneJ := rfl
@[simp] theorem complete_laneK (s : State) : (s.complete).laneK = s.laneK := rfl
@[simp] theorem complete_ring (s : State) : (s.complete).ring = s.ring := rfl
@[simp] theorem complete_phase (s : State) : (s.complete).phase = Phase.idle.code := rfl
@[simp] theorem complete_p (s : State) : (s.complete).p = s.p := rfl
@[simp] theorem complete_q (s : State) : (s.complete).q = s.q := rfl
@[simp] theorem complete_op (s : State) : (s.complete).op = s.op := rfl
@[simp] theorem complete_seed (s : State) : (s.complete).seed = s.seed := rfl
@[simp] theorem complete_len (s : State) : (s.complete).len = s.len := rfl
@[simp] theorem complete_digest0 (s : State) : (s.complete).digest0 = s.digest0 := rfl
@[simp] theorem complete_digest1 (s : State) : (s.complete).digest1 = s.digest1 := rfl
@[simp] theorem complete_dvalid (s : State) : (s.complete).dvalid = true := rfl
@[simp] theorem complete_busy (s : State) : (s.complete).busy = false := rfl
@[simp] theorem complete_msg (s : State) : (s.complete).msg = s.msg := rfl
@[simp] theorem complete_request (s : State) : (s.complete).request = s.request := rfl
@[simp] theorem complete_unitIn (s : State) : (s.complete).unitIn = s.unitIn := rfl
@[simp] theorem complete_unitOut (s : State) : (s.complete).unitOut = s.unitOut := rfl
@[simp] theorem complete_freeCount (s : State) : (s.complete).freeCount = s.freeCount := rfl

/-! ### `State.presentStart` -/

@[simp] theorem presentStart_lanes (s : State) (c : Command) : (s.presentStart c).lanes = s.lanes := rfl
@[simp] theorem presentStart_laneI (s : State) (c : Command) : (s.presentStart c).laneI = s.laneI := rfl
@[simp] theorem presentStart_laneJ (s : State) (c : Command) : (s.presentStart c).laneJ = s.laneJ := rfl
@[simp] theorem presentStart_laneK (s : State) (c : Command) : (s.presentStart c).laneK = s.laneK := rfl
@[simp] theorem presentStart_ring (s : State) (c : Command) : (s.presentStart c).ring = s.ring := rfl
@[simp] theorem presentStart_phase (s : State) (c : Command) : (s.presentStart c).phase = s.phase := rfl
@[simp] theorem presentStart_p (s : State) (c : Command) : (s.presentStart c).p = s.p := rfl
@[simp] theorem presentStart_q (s : State) (c : Command) : (s.presentStart c).q = s.q := rfl
@[simp] theorem presentStart_op (s : State) (c : Command) : (s.presentStart c).op = s.op := rfl
@[simp] theorem presentStart_seed (s : State) (c : Command) : (s.presentStart c).seed = s.seed := rfl
@[simp] theorem presentStart_len (s : State) (c : Command) : (s.presentStart c).len = s.len := rfl
@[simp] theorem presentStart_digest0 (s : State) (c : Command) : (s.presentStart c).digest0 = s.digest0 := rfl
@[simp] theorem presentStart_digest1 (s : State) (c : Command) : (s.presentStart c).digest1 = s.digest1 := rfl
@[simp] theorem presentStart_dvalid (s : State) (c : Command) : (s.presentStart c).dvalid = s.dvalid := rfl
@[simp] theorem presentStart_busy (s : State) (c : Command) : (s.presentStart c).busy = s.busy := rfl
@[simp] theorem presentStart_msg (s : State) (c : Command) : (s.presentStart c).msg = s.msg := rfl
@[simp] theorem presentStart_request (s : State) (c : Command) : (s.presentStart c).request = .start c := rfl
@[simp] theorem presentStart_unitIn (s : State) (c : Command) : (s.presentStart c).unitIn = s.unitIn := rfl
@[simp] theorem presentStart_unitOut (s : State) (c : Command) : (s.presentStart c).unitOut = s.unitOut := rfl
@[simp] theorem presentStart_freeCount (s : State) (c : Command) : (s.presentStart c).freeCount = s.freeCount := rfl

/-! ### `State.resetEvent`: the fields the spec fixes, and the inputs -/

@[simp] theorem resetEvent_phase (s : State) : s.resetEvent.phase = Phase.idle.code := rfl
@[simp] theorem resetEvent_busy (s : State) : s.resetEvent.busy = false := rfl
@[simp] theorem resetEvent_dvalid (s : State) : s.resetEvent.dvalid = false := rfl
@[simp] theorem resetEvent_msg (s : State) : s.resetEvent.msg = s.msg := rfl
@[simp] theorem resetEvent_request (s : State) : s.resetEvent.request = .none := rfl
@[simp] theorem resetEvent_unitIn (s : State) : s.resetEvent.unitIn = s.unitIn := rfl
@[simp] theorem resetEvent_unitOut (s : State) : s.resetEvent.unitOut = s.unitOut := rfl
@[simp] theorem resetEvent_freeCount (s : State) : s.resetEvent.freeCount = s.freeCount + 17 := rfl

/-! ### Lanes -/

@[simp] theorem get_set_same (l : Lanes) (a : Lane) (v : Word) : (l.set a v).get a = v := by
  cases a <;> rfl

theorem get_set_other (l : Lanes) (a b : Lane) (v : Word) (h : a ≠ b) :
    (l.set a v).get b = l.get b := by
  cases a <;> cases b <;> first | rfl | exact absurd rfl h

@[simp] theorem get_xor_same (l : Lanes) (a : Lane) (v : Word) :
    (l.xor a v).get a = l.get a ^^^ v := get_set_same l a _

theorem get_xor_other (l : Lanes) (a b : Lane) (v : Word) (h : a ≠ b) :
    (l.xor a v).get b = l.get b := get_set_other l a b _ h

theorem lanes_ext (l m : Lanes) (h : ∀ a, l.get a = m.get a) : l = m := by
  obtain ⟨a0, a1, a2, a3, a4, a5⟩ := l
  obtain ⟨b0, b1, b2, b3, b4, b5⟩ := m
  have h0 := h .l0
  have h1 := h .l1
  have h2 := h .l2
  have h3 := h .l3
  have h4 := h .l4
  have h5 := h .l5
  simp only [Lanes.get] at h0 h1 h2 h3 h4 h5
  subst h0 h1 h2 h3 h4 h5
  rfl

end Sys2Proof.Laws
end

