-- ==== Sys2Proof/Laws/Ops.lean ====
section
/-! SUPPORT. What the shared operations of a step can do. -/

namespace Sys2Proof.Laws

open Sys2Proof.Machine

/-! ### Reads and composition -/

@[simp] theorem onRead_ok {α : Type} (v : α) (f : α → Result) : onRead (.ok v) f = f v := rfl

@[simp] theorem onRead_error {α : Type} (e : Fault) (f : α → Result) :
    onRead (.error e) f = .fault e := rfl

/-- A next state comes only from a read that succeeded. -/
theorem onRead_next {α : Type} {r : Except Fault α} {f : α → Result} {t : State}
    (h : onRead r f = .next t) : ∃ v, r = .ok v ∧ f v = .next t := by
  cases r with
  | ok v => exact ⟨v, rfl, h⟩
  | error e => exact absurd h (by simp)

@[simp] theorem andThen_next (s : State) (f : State → Result) : andThen (.next s) f = f s := rfl

@[simp] theorem andThen_fault (e : Fault) (f : State → Result) :
    andThen (.fault e) f = .fault e := rfl

@[simp] theorem andThen_refused (e : Refusal) (f : State → Result) :
    andThen (.refused e) f = .refused e := rfl

/-- A composition answers a next state only through a state between. -/
theorem andThen_eq_next {r : Result} {f : State → Result} {t : State}
    (h : andThen r f = .next t) : ∃ u, r = .next u ∧ f u = .next t := by
  cases r with
  | next u => exact ⟨u, rfl, h⟩
  | fault e => exact absurd h (by simp)
  | refused e => exact absurd h (by simp)

theorem andThen_assoc (r : Result) (f g : State → Result) :
    andThen (andThen r f) g = andThen r fun s => andThen (f s) g := by
  cases r <;> rfl

@[simp] theorem times_zero (f : State → Result) (s : State) : times f 0 s = .next s := rfl

theorem times_succ (f : State → Result) (n : Nat) (s : State) :
    times f (n + 1) s = andThen (f s) (times f n) := rfl

/-! ### Phase codes -/

@[simp] theorem ofCode_code (x : Phase) : Phase.ofCode x.code = some x := by cases x <;> rfl

theorem code_injective {x y : Phase} (h : x.code = y.code) : x = y := by
  have := congrArg Phase.ofCode h
  simpa using this

theorem ofCode_isSome_iff (c : BitVec 4) : (Phase.ofCode c).isSome = true ↔ c.toNat < 13 := by
  revert c; decide

theorem ofCode_eq_none (c : BitVec 4) (h : 13 ≤ c.toNat) : Phase.ofCode c = none := by
  cases hc : Phase.ofCode c with
  | none => rfl
  | some x =>
    have := (ofCode_isSome_iff c).1 (by rw [hc]; rfl)
    omega

/-- A result stands where `PHASE` names a phase. -/
theorem namedPhase_of_isSome (s : State) (r : Result) (h : (Phase.ofCode s.phase).isSome = true) :
    namedPhase s r = r := by
  obtain ⟨x, hx⟩ := Option.isSome_iff_exists.1 h
  simp [namedPhase, hx]

/-- A state whose `PHASE` names no phase is refused. -/
theorem namedPhase_of_reserved (s : State) (r : Result) (h : 13 ≤ s.phase.toNat) :
    namedPhase s r = .refused (.reservedPhase s.phase) := by
  simp [namedPhase, ofCode_eq_none s.phase h]

/-- A next state comes only from a state whose `PHASE` names a phase. -/
theorem namedPhase_next {s t : State} {r : Result} (h : namedPhase s r = .next t) :
    r = .next t ∧ (Phase.ofCode s.phase).isSome = true := by
  unfold namedPhase at h
  split at h
  · exact ⟨h, by simp [*]⟩
  · cases h

/-! ### START -/

/-- START accepted. -/
theorem start_of_ready (c : Command) (s : State) (h : Ready s) :
    start c s = .next
      ((({ s.loseDigest with op := c.op, seed := c.seed, len := c.len }.flagsAtStart).retire).setPhase
        (startPhase c.len)) := by
  simp [start, h.1, namedPhase_of_isSome s _ h.2]

/-- START answers a next state only where it is accepted. -/
theorem start_next {c : Command} {s t : State} (h : start c s = .next t) : Ready s := by
  unfold start at h
  split at h
  · cases h
  · exact ⟨by simp_all, (namedPhase_next h).2⟩

/-! ### The step -/

/-- The engine takes the row that `PHASE` names, unless a unit function waits in IDLE. -/
theorem fetchRow_phase (s : State) (x : Phase) (hp : s.phase = x.code)
    (hu : x = .idle → s.unitIn = none) : fetchRow s = .ok x.instr := by
  have h : fetchPhase s = .ok x.instr := by simp [fetchPhase, hp]
  unfold fetchRow
  split
  · rw [if_neg, h]
    intro hi
    have := hu (code_injective (hp.symm.trans hi))
    simp_all
  · exact h

/-- With nothing presented the step, for any meaning of the instructions, runs the row that `PHASE`
names. -/
theorem stepOf_phase (ex : Instr → State → Result) (s : State) (x : Phase)
    (hr : s.request = .none) (hp : s.phase = x.code) (hu : x = .idle → s.unitIn = none) :
    stepOf ex s = ex x.instr s := by
  simp [stepOf, hr, fetch, fetchRow_phase s x hp hu]

theorem step_phase (s : State) (x : Phase) (hr : s.request = .none) (hp : s.phase = x.code)
    (hu : x = .idle → s.unitIn = none) : step s = exec x.instr s :=
  stepOf_phase exec s x hr hp hu

theorem step_start (s : State) (c : Command) (hr : s.request = .start c) :
    step s = start c s := by
  simp [step, stepOf, hr, fetch, exec, execIdle]

theorem step_reset (s : State) (hr : s.request = .reset) : step s = .next s.resetEvent := by
  simp [step, stepOf, hr]

theorem step_place (s : State) (base : Nat) (bs : List Byte) (hr : s.request = .place base bs) :
    step s = hostPlace base bs s := by
  simp [step, stepOf, hr]

/-! ### Runs -/

@[simp] theorem runSteps_zero (s : State) : runSteps 0 s = .next s := rfl

/-- A run is the first step and then the rest. -/
theorem runSteps_succ (k : Nat) (s : State) :
    runSteps (k + 1) s = andThen (step s) (runSteps k) := rfl

/-- A run of `k + n` steps is a run of `k` and then one of `n`. -/
theorem runSteps_add (k n : Nat) (s : State) :
    runSteps (k + n) s = andThen (runSteps k s) (runSteps n) := by
  induction k generalizing s with
  | zero => simp
  | succ k ih =>
    rw [show k + 1 + n = (k + n) + 1 by omega, runSteps_succ, runSteps_succ, andThen_assoc]
    congr 1
    funext t
    exact ih t

/-- A run of any steps is the first step and then the rest. -/
theorem runOf_succ (st : State → Result) (k : Nat) (s : State) :
    runOf st (k + 1) s = andThen (st s) (runOf st k) := rfl

theorem core_run_succ (M : Host.Core) (k : Nat) (s : M.State) :
    M.run (k + 1) s =
      match M.step s with
      | .next t => M.run k t
      | .fault r => .fault r
      | .refused r => .refused r := rfl

/-- The runs are those of the host's interface. -/
theorem core_run_eq (k : Nat) (s : State) : Sys2Proof.core.run k s = runSteps k s := by
  induction k generalizing s with
  | zero => rfl
  | succ k ih =>
    have h := core_run_succ Sys2Proof.core k s
    rw [runSteps_succ]
    cases hs : step s with
    | next t =>
      have hc : Sys2Proof.core.step s = .next t := hs
      rw [hc] at h
      exact h.trans (ih t)
    | fault r =>
      have hc : Sys2Proof.core.step s = .fault r := hs
      rw [hc] at h
      exact h
    | refused r =>
      have hc : Sys2Proof.core.step s = .refused r := hs
      rw [hc] at h
      exact h

end Sys2Proof.Laws
end

