-- ==== Sys2Proof/Laws/PerInstr.lean ====
section
/-! SUPPORT. Statements about every instruction, one lemma per constructor. -/

namespace Sys2Proof.Laws

/-- The packet of an instruction has the length of its format. -/
def PacketLength.Statement (i : Instr) : Prop := (encode i).bytes.length = (encode i).format.size

theorem PacketLength.hash64 (a b : Word) : PacketLength.Statement (.hash64 a b) := leBytes_length _ _

theorem PacketLength.hash64f (a b : Word) : PacketLength.Statement (.hash64f a b) := leBytes_length _ _

theorem PacketLength.hash128 (a b : Word) : PacketLength.Statement (.hash128 a b) := leBytes_length _ _

theorem PacketLength.hash128f (a b : Word) : PacketLength.Statement (.hash128f a b) := leBytes_length _ _

theorem PacketLength.idle : PacketLength.Statement .idle := leBytes_length _ _

theorem PacketLength.short : PacketLength.Statement .short := leBytes_length _ _

theorem PacketLength.epis64 : PacketLength.Statement .epis64 := leBytes_length _ _

theorem PacketLength.epis128 : PacketLength.Statement .epis128 := leBytes_length _ _

theorem PacketLength.init : PacketLength.Statement .init := leBytes_length _ _

theorem PacketLength.blk96 : PacketLength.Statement .blk96 := leBytes_length _ _

theorem PacketLength.rclose : PacketLength.Statement .rclose := leBytes_length _ _

theorem PacketLength.blk48 : PacketLength.Statement .blk48 := leBytes_length _ _

theorem PacketLength.blk24 : PacketLength.Statement .blk24 := leBytes_length _ _

theorem PacketLength.tail : PacketLength.Statement .tail := leBytes_length _ _

theorem PacketLength.layerf : PacketLength.Statement .layerf := leBytes_length _ _

theorem PacketLength.epil64 : PacketLength.Statement .epil64 := leBytes_length _ _

theorem PacketLength.epil128 : PacketLength.Statement .epil128 := leBytes_length _ _

theorem PacketLength.wmul (a b : Word) : PacketLength.Statement (.wmul a b) := leBytes_length _ _

theorem PacketLength.rotl (a b : Word) : PacketLength.Statement (.rotl a b) := leBytes_length _ _

theorem PacketLength.rotr (a b : Word) : PacketLength.Statement (.rotr a b) := leBytes_length _ _

theorem PacketLength.chi (a b c : Word) : PacketLength.Statement (.chi a b c) := leBytes_length _ _

theorem PacketLength.rd32 (a : Word) : PacketLength.Statement (.rd32 a) := leBytes_length _ _

theorem PacketLength.rd64 (a : Word) : PacketLength.Statement (.rd64 a) := leBytes_length _ _

theorem PacketLength.rdshort (a b : Word) : PacketLength.Statement (.rdshort a b) := leBytes_length _ _

end Sys2Proof.Laws
end

