-- ==== Sys2Proof/Laws/Readers.lean ====
section
/-! SUPPORT. What the short reader can answer (spec/40_primitives.md R97, spec/20_memory.md R57). -/

namespace Sys2Proof.Laws

open Sys2Proof.Machine

/-- Two numbers packed by a shift and an OR, the lower one narrow enough: their sum. -/
theorem shift_or (k x y : Nat) (hy : y < 2 ^ k) :
    (BitVec.ofNat 64 x <<< k) ||| BitVec.ofNat 64 y = BitVec.ofNat 64 (x * 2 ^ k + y) := by
  apply BitVec.eq_of_getLsbD_eq
  intro i hi
  rw [show x * 2 ^ k + y = x <<< k ||| y by
    rw [Nat.shiftLeft_add_eq_or_of_lt hy x |>.symm, Nat.shiftLeft_eq]]
  simp only [BitVec.getLsbD_or, BitVec.getLsbD_shiftLeft, BitVec.getLsbD_ofNat, Nat.testBit_or,
    Nat.testBit_shiftLeft, hi, decide_true, Bool.true_and]
  by_cases hk : i < k
  · simp [hk, Nat.not_le.2 hk]
  · have : i - k < 64 := by omega
    simp [hk, Nat.le_of_not_lt hk, this]

/-- RDSHORT of bytes that are all held gives the words of R97. -/
theorem rdshort_of_holds (m : Mem) (base n : Nat) (h : Holds m base (base + n)) :
    rdshort m base n = .ok (shortWords m base n) := by
  have r32 : ∀ a, base ≤ a → a + 4 ≤ base + n → rd32 m a = .ok (msgWord m a 4) := fun a h1 h2 =>
    rd32_of_holds m a fun x k1 k2 => h x (by omega) (by omega)
  have r8 : ∀ a, base ≤ a → a < base + n → rd8 m a = .ok (BitVec.ofNat 64 (msgByte m a)) :=
    fun a h1 h2 => rd8_of_holds m a (h a h1 h2)
  have lt4 : ∀ a, msgLE m a 4 < 2 ^ 32 := fun a => by simpa using msgLE_lt m a 4
  by_cases h0 : n = 0
  · subst h0; rfl
  by_cases h3 : n ≤ 3
  · have e0 := r8 base (by omega) (by omega)
    have e1 := r8 (base + n / 2) (by omega) (by omega)
    have e2 := r8 (base + n - 1) (by omega) (by omega)
    have b2 := msgByte_lt m (base + n - 1)
    have b1 := msgByte_lt m (base + n / 2)
    unfold rdshort shortWords
    rw [if_neg (by omega), if_pos (by omega), if_neg h0, if_pos h3, e0, e1, e2]
    simp only [bind_ok, pure_ok]
    rw [BitVec.or_assoc, shift_or 24 _ _ (by omega), shift_or 48 _ _ (by omega), Nat.add_assoc]
  · by_cases h7 : n ≤ 7
    · have ho : shortOff n = 0 := if_neg (by omega)
      have e0 := r32 base (by omega) (by omega)
      have e1 := r32 (base + n - 4) (by omega) (by omega)
      unfold rdshort shortWords
      rw [if_pos (by omega), if_neg h0, if_neg h3, if_pos h7, ho, Nat.add_zero, Nat.sub_zero, e0, e1]
      simp only [bind_ok, pure_ok, msgWord]
      rw [shift_or 32 _ _ (lt4 _)]
    · have ho : shortOff n = 4 := if_pos (by omega)
      have e0 := r32 base (by omega) (by omega)
      have e1 := r32 (base + n - 4) (by omega) (by omega)
      have e2 := r32 (base + 4) (by omega) (by omega)
      have e3 := r32 (base + n - 8) (by omega) (by omega)
      unfold rdshort shortWords
      rw [if_pos (by omega), if_neg h0, if_neg h3, if_neg h7, ho,
        show base + n - 4 - 4 = base + n - 8 by omega, e0, e1, e2, e3]
      simp only [bind_ok, pure_ok, msgWord]
      rw [shift_or 32 _ _ (lt4 _), shift_or 32 _ _ (lt4 _)]

/-- RDSHORT can fault only at an offset of its own range that is not held. -/
theorem rdshort_error (m : Mem) (base n : Nat) (e : Fault)
    (h : rdshort m base n = .error e) :
    ∃ x, e = .msgFault x ∧ base ≤ x ∧ x < base + n ∧ m.has x = false := by
  have f32 : ∀ a e, rd32 m a = .error e → base ≤ a → a + 4 ≤ base + n →
      ∃ x, e = .msgFault x ∧ base ≤ x ∧ x < base + n ∧ m.has x = false := by
    intro a e he h1 h2
    rcases rd32_cases m a with ⟨_, hr⟩ | ⟨x, hx, hr⟩
    · rw [hr] at he; exact absurd he (by simp)
    · rw [hr] at he
      exact ⟨x, (by injection he with he; exact he.symm), by have := hx.1; omega,
        by have := hx.2.1; omega, hx.2.2.1⟩
  have f8 : ∀ a e, rd8 m a = .error e → base ≤ a → a < base + n →
      ∃ x, e = .msgFault x ∧ base ≤ x ∧ x < base + n ∧ m.has x = false := by
    intro a e he h1 h2
    rcases rd8_cases m a with ⟨_, hr⟩ | ⟨hx, hr⟩
    · rw [hr] at he; exact absurd he (by simp)
    · rw [hr] at he
      exact ⟨a, (by injection he with he; exact he.symm), h1, h2, hx⟩
  have hoff : shortOff n = if n ≥ 8 then 4 else 0 := rfl
  unfold rdshort at h
  split at h
  · rcases bind_eq_error h with h | ⟨_, _, h⟩
    · exact f32 _ e h (by omega) (by omega)
    rcases bind_eq_error h with h | ⟨_, _, h⟩
    · exact f32 _ e h (by omega) (by omega)
    rcases bind_eq_error h with h | ⟨_, _, h⟩
    · exact f32 _ e h (by omega) (by rw [hoff]; split <;> omega)
    rcases bind_eq_error h with h | ⟨_, _, h⟩
    · exact f32 _ e h (by rw [hoff]; split <;> omega) (by rw [hoff]; split <;> omega)
    · cases h
  · split at h
    · rcases bind_eq_error h with h | ⟨_, _, h⟩
      · exact f8 _ e h (by omega) (by omega)
      rcases bind_eq_error h with h | ⟨_, _, h⟩
      · exact f8 _ e h (by omega) (by omega)
      rcases bind_eq_error h with h | ⟨_, _, h⟩
      · exact f8 _ e h (by omega) (by omega)
      · cases h
    · cases h

/-- RDSHORT faults at the lowest missing offset of its first read that misses one (R64, R173). -/
theorem rdshort_of_faultsAt (m : Mem) (base n a : Nat) (h : FaultsAt m (shortReads base n) a) :
    rdshort m base n = .error (.msgFault a) := by
  have r32 : ∀ x, FirstMissing m x (x + 4) a → rd32 m x = .error (.msgFault a) := fun x hx => by
    simp [rd32, memRead_of_missing m x 4 a hx]
  have r8 : ∀ x, FirstMissing m x (x + 1) a → rd8 m x = .error (.msgFault a) := fun x hx => by
    simp [rd8, memRead_of_missing m x 1 a hx]
  have k8 : ∀ x, Holds m x (x + 1) → ∃ v, rd8 m x = .ok v := fun x hx =>
    ⟨_, rd8_of_holds m x (hx x (Nat.le_refl x) (by omega))⟩
  have k32 : ∀ x, Holds m x (x + 4) → ∃ v, rd32 m x = .ok v := fun x hx =>
    ⟨_, rd32_of_holds m x hx⟩
  have three : ∀ x y z, FaultsAt m [(x, 1), (y, 1), (z, 1)] a → ∀ f : Word → Word → Word → Word × Word,
      (do let u ← rd8 m x; let v ← rd8 m y; let w ← rd8 m z; return f u v w)
        = Except.error (Fault.msgFault a) := by
    intro x y z h f
    rcases h with h | ⟨h1, h | ⟨h2, h | ⟨-, h⟩⟩⟩
    · rw [r8 x h]; rfl
    · obtain ⟨u, hu⟩ := k8 x h1
      rw [hu, r8 y h]; rfl
    · obtain ⟨u, hu⟩ := k8 x h1
      obtain ⟨v, hv⟩ := k8 y h2
      rw [hu, hv, r8 z h]; rfl
    · exact h.elim
  have four : ∀ x y z t, FaultsAt m [(x, 4), (y, 4), (z, 4), (t, 4)] a →
      ∀ f : Word → Word → Word → Word → Word × Word,
      (do let u ← rd32 m x; let v ← rd32 m y; let w ← rd32 m z; let p ← rd32 m t; return f u v w p)
        = Except.error (Fault.msgFault a) := by
    intro x y z t h f
    rcases h with h | ⟨h1, h | ⟨h2, h | ⟨h3, h | ⟨-, h⟩⟩⟩⟩
    · rw [r32 x h]; rfl
    · obtain ⟨u, hu⟩ := k32 x h1
      rw [hu, r32 y h]; rfl
    · obtain ⟨u, hu⟩ := k32 x h1
      obtain ⟨v, hv⟩ := k32 y h2
      rw [hu, hv, r32 z h]; rfl
    · obtain ⟨u, hu⟩ := k32 x h1
      obtain ⟨v, hv⟩ := k32 y h2
      obtain ⟨w, hw⟩ := k32 z h3
      rw [hu, hv, hw, r32 t h]; rfl
    · exact h.elim
  unfold shortReads at h
  unfold rdshort
  by_cases h0 : n = 0
  · rw [if_pos h0] at h; exact h.elim
  rw [if_neg h0] at h
  by_cases h3 : n ≤ 3
  · rw [if_pos h3] at h
    rw [if_neg (by omega), if_pos (by omega)]
    exact three _ _ _ h _
  rw [if_neg h3] at h
  rw [if_pos (by omega)]
  by_cases h7 : n ≤ 7
  · rw [if_pos h7] at h
    rw [show shortOff n = 0 from if_neg (by omega), Nat.add_zero, Nat.sub_zero]
    exact four _ _ _ _ h _
  · rw [if_neg h7] at h
    rw [show shortOff n = 4 from if_pos (by omega), show base + n - 4 - 4 = base + n - 8 by omega]
    exact four _ _ _ _ h _

end Sys2Proof.Laws
end

