-- ==== Sys2Proof/Tests/Slice0.lean ====
section
/-! SUPPORT. Tests: the well-formedness smoke test, words written out from the encoding tables, one
or two small tests per instruction with expected values of spec/95_test_vectors.md, and a witness for
the hypotheses of each statement. -/

namespace Sys2Proof.Tests

open Sys2Proof Sys2Proof.Machine

-- One theorem after another: many kernel evaluations at once would each hold a thread.
set_option Elab.async false

/-- A message of `n` bytes, the byte at offset `k` being `k` (the `msg[k] = k` of spec/95). -/
def ramp (n : Nat) : Mem := (List.range n).map fun k => (k, BitVec.ofNat 8 k)

/-- The bytes `1, 2, .., n` (spec/95 section 2.4). -/
def ramp1 (n : Nat) : Mem := (List.range n).map fun k => (k, BitVec.ofNat 8 (k + 1))

/-- The bytes of spec/95 section 2.5. -/
def tens : Mem :=
  Mem.writes [] 0 [0x11, 0x22, 0x33, 0x44, 0x55, 0x66, 0x77, 0x88, 0x99, 0xAA]

/-- The message `abc`. -/
def abc : Mem := Mem.writes [] 0 [0x61, 0x62, 0x63]

/-- A state after reset with a latched command and a message. -/
def latched (op : BitVec 2) (seed len : Word) (m : Mem) : State :=
  { State.reset with op := op, seed := seed, len := len, msg := m }

/-- One field of the next state of a result. -/
def got {α : Type} (f : State → α) : Result → Option α
  | .next s => some (f s)
  | .fault _ => none
  | .refused _ => none

/-- The offset of a result that is `MsgFault`. -/
def faultAt : Result → Option Nat
  | .fault (.msgFault a) => some a
  | .next _ => none
  | .refused _ => none

/-- The reason of a result that is refused. -/
def refusal : Result → Option Refusal
  | .refused r => some r
  | .next _ => none
  | .fault _ => none

/-- What a decoder's answer is, as an option. -/
def decoded (f : Format) (bs : List Byte) : Option Instr :=
  match decode f bs with
  | .ok i => some i
  | .error _ => none

/-- Why a decoder rejects. -/
def rejected (f : Format) (bs : List Byte) : Option Reject :=
  match decode f bs with
  | .ok _ => none
  | .error r => some r

theorem got_isSome {α : Type} {f : State → α} {r : Result} (h : (got f r).isSome = true) :
    ∃ t, r = .next t := by
  cases r with
  | next t => exact ⟨t, rfl⟩
  | fault e => exact absurd h (by simp [got])
  | refused e => exact absurd h (by simp [got])

/-! ### Well-formedness -/

theorem test_wf_refuses_count_17 : (Instr.rdshort 0 17).wf = false := by decide

theorem test_wf_accepts_count_16 : (Instr.rdshort 0 16).wf = true := by decide

/-! ### Decoding: words written out from R70, R71, R74, R75 -/

theorem test_decode_hash64 :
    decoded .cmd (leBytes 17 0x0_0000000000000000_0000000000000003) = some (.hash64 0 3) := by decide +kernel

theorem test_decode_hash64f :
    decoded .cmd (leBytes 17 0x1_0000000000000001_0000000000000011) = some (.hash64f 1 17) := by decide +kernel

theorem test_decode_hash128 :
    decoded .cmd (leBytes 17 0x2_0000000000000007_00000000000000C8) = some (.hash128 7 200) := by decide +kernel

theorem test_decode_hash128f :
    decoded .cmd (leBytes 17 0x3_0123456789ABCDEF_00000000000000AB)
      = some (.hash128f 0x0123456789ABCDEF 171) := by decide +kernel

theorem test_decode_idle : decoded .phase [0b00000000#8] = some .idle := by decide +kernel

theorem test_decode_short : decoded .phase [0b00000001#8] = some .short := by decide +kernel

theorem test_decode_epis64 : decoded .phase [0b00000010#8] = some .epis64 := by decide +kernel

theorem test_decode_epis128 : decoded .phase [0b00000011#8] = some .epis128 := by decide +kernel

theorem test_decode_init : decoded .phase [0b00000100#8] = some .init := by decide +kernel

theorem test_decode_blk96 : decoded .phase [0b00000101#8] = some .blk96 := by decide +kernel

theorem test_decode_rclose : decoded .phase [0b00000110#8] = some .rclose := by decide +kernel

theorem test_decode_blk48 : decoded .phase [0b00000111#8] = some .blk48 := by decide +kernel

theorem test_decode_blk24 : decoded .phase [0b00001000#8] = some .blk24 := by decide +kernel

theorem test_decode_tail : decoded .phase [0b00001001#8] = some .tail := by decide +kernel

theorem test_decode_layerf : decoded .phase [0b00001010#8] = some .layerf := by decide +kernel

theorem test_decode_epil64 : decoded .phase [0b00001011#8] = some .epil64 := by decide +kernel

theorem test_decode_epil128 : decoded .phase [0b00001100#8] = some .epil128 := by decide +kernel

theorem test_decode_wmul :
    decoded .unit (leBytes 25 0x0000000000000000_0000000000000006_0000000000000005_00)
      = some (.wmul 5 6) := by decide +kernel

theorem test_decode_rotl :
    decoded .unit (leBytes 25 0x0000000000000000_000000000000003F_0000000000000005_01)
      = some (.rotl 5 63) := by decide +kernel

theorem test_decode_rotr :
    decoded .unit (leBytes 25 0x0000000000000000_0000000000000040_0000000000000005_02)
      = some (.rotr 5 64) := by decide +kernel

theorem test_decode_chi :
    decoded .unit (leBytes 25 0x0000000000000003_0000000000000002_0000000000000001_03)
      = some (.chi 1 2 3) := by decide +kernel

theorem test_decode_rd32 :
    decoded .unit (leBytes 25 0x0000000000000000_0000000000000000_0000000000000009_04)
      = some (.rd32 9) := by decide +kernel

theorem test_decode_rd64 :
    decoded .unit (leBytes 25 0x0000000000000000_0000000000000000_0000000000000009_05)
      = some (.rd64 9) := by decide +kernel

theorem test_decode_rdshort :
    decoded .unit (leBytes 25 0x0000000000000000_0000000000000010_0000000000000009_06)
      = some (.rdshort 9 16) := by decide +kernel

/-- R73: the phase codes 13 to 15 and the tag `111` name nothing; R97: no count above 16. -/
theorem test_decode_rejects :
    rejected .phase [0b00001101#8] = some (.reservedPhase 13) ∧
    rejected .phase [0b00001111#8] = some (.reservedPhase 15) ∧
    rejected .phase [0b00010000#8] = some .padding ∧
    rejected .unit (leBytes 25 0b111) = some .reservedTag ∧
    rejected .unit (leBytes 25 0x0000000000000000_0000000000000011_0000000000000000_06)
      = some (.badCount 17) ∧
    rejected .cmd (leBytes 17 (4 * 2 ^ 128)) = some .padding ∧
    rejected .cmd [] = some (.wrongLength .cmd) := by decide +kernel

/-- A table word is read by its width; it runs as the next step (HASH64 of the empty message). -/
theorem test_table_word :
    decodeTableWord 136 (2 ^ 129 + 200) = some (.hash128 0 200) ∧
    decodeTableWord 8 0b0100 = some .init ∧ decodeTableWord 3 0b011 = some (.chi 0 0 0) ∧
    decodeTableWord 8 0b1101 = none := by decide +kernel

theorem test_table_word_runs :
    got (·.digest0) (step (State.reset.withFetchWord 136 0)) = some 0x0B6D39AF88433EE6#64 := by decide +kernel

theorem test_unit_word_runs :
    got (·.unitOut) (step (State.reset.withFetchWord 200 (2 ^ 72 * 4 + 2 ^ 8 * 3 + 1)))
      = some (.word 48#64) := by decide +kernel

/-! ### The unit functions (spec/95 sections 2.1 to 2.5) -/

theorem test_wmul_largest :
    got (·.unitOut) (exec (.wmul 0xFFFFFFFFFFFFFFFF#64 0xFFFFFFFFFFFFFFFF#64) State.reset)
      = some (.pair 1#64 0xFFFFFFFFFFFFFFFE#64) := by decide +kernel

theorem test_wmul_general :
    got (·.unitOut) (exec (.wmul 0x0123456789ABCDEF#64 0xFEDCBA9876543210#64) State.reset)
      = some (.pair 0x2236D88FE5618CF0#64 0x0121FA00AD77D742#64) := by decide +kernel

theorem test_rotl_17 :
    got (·.unitOut) (exec (.rotl 0x0123456789ABCDEF#64 17#64) State.reset)
      = some (.word 0x8ACF13579BDE0246#64) := by decide +kernel

theorem test_rotl_63 :
    got (·.unitOut) (exec (.rotl 1#64 63#64) State.reset)
      = some (.word 0x8000000000000000#64) := by decide +kernel

theorem test_rotr_17 :
    got (·.unitOut) (exec (.rotr 0x0123456789ABCDEF#64 17#64) State.reset)
      = some (.word 0xE6F78091A2B3C4D5#64) := by decide +kernel

theorem test_rotr_0 :
    got (·.unitOut) (exec (.rotr 0x0123456789ABCDEF#64 0#64) State.reset)
      = some (.word 0x0123456789ABCDEF#64) := by decide +kernel

theorem test_chi_general :
    got (·.unitOut)
      (exec (.chi 0x0123456789ABCDEF#64 0xFEDCBA9876543210#64 0x0F0F0F0F0F0F0F0F#64) State.reset)
      = some (.triple 0x0020406080A0C0E0#64 0xFEFCFAF8F6F4F2F0#64 0xF1D3B597795B3D1F#64) := by decide +kernel

theorem test_chi_last :
    got (·.unitOut) (exec (.chi 0#64 0#64 0xFFFFFFFFFFFFFFFF#64) State.reset)
      = some (.triple 0xFFFFFFFFFFFFFFFF#64 0#64 0xFFFFFFFFFFFFFFFF#64) := by decide +kernel

theorem test_rd32_unaligned :
    got (·.unitOut) (exec (.rd32 6) (latched 0 0 10 tens)) = some (.word 0xAA998877#64) := by decide +kernel

theorem test_rd32_faults :
    faultAt (exec (.rd32 7) (latched 0 0 10 tens)) = some 10 := by decide +kernel

theorem test_rd64_unaligned :
    got (·.unitOut) (exec (.rd64 2) (latched 0 0 10 tens))
      = some (.word 0xAA99887766554433#64) := by decide +kernel

theorem test_rd64_faults :
    faultAt (exec (.rd64 3) (latched 0 0 10 tens)) = some 10 := by decide +kernel

theorem test_rdshort_3 :
    got (·.unitOut) (exec (.rdshort 0 3) (latched 0 0 16 (ramp1 16)))
      = some (.pair 0x0001000002000003#64 0#64) := by decide +kernel

theorem test_rdshort_13 :
    got (·.unitOut) (exec (.rdshort 0 13) (latched 0 0 16 (ramp1 16)))
      = some (.pair 0x040302010D0C0B0A#64 0x0807060509080706#64) := by decide +kernel

/-! ### The phases (worked examples of R110 to R142, traces of spec/95 section 3.3) -/

theorem test_idle_start :
    got (fun s => (s.phase, s.busy, s.len))
      (exec .idle (State.reset.presentStart ⟨0b01#2, 5, 17⟩)) = some (4#4, true, 17#64) := by decide +kernel

theorem test_idle_waits : got (·.phase) (exec .idle State.reset) = some 0#4 := by decide +kernel

theorem test_short_abc :
    got (fun s => (s.laneI, s.laneJ)) (exec .short (latched 0 0 3 abc))
      = some (0xCA70D2B46258AD64#64, 0x358DAAEC0C81A8F3#64) := by decide +kernel

theorem test_short_16 :
    got (fun s => (s.laneI, s.laneJ)) (exec .short (latched 0 0 16 (ramp 16)))
      = some (0x1E6298E52661EE36#64, 0x328BAFE8078BA1F1#64) := by decide +kernel

theorem test_epis64_abc :
    got (·.digest0)
      (exec .epis64 { State.reset with laneI := 0xCA70D2B46258AD64, laneJ := 0x358DAAEC0C81A8F3 })
      = some 0xAFF6EB2D385E613C#64 := by decide +kernel

theorem test_epis128_abc :
    got (fun s => (s.digest0, s.digest1))
      (exec .epis128 { State.reset with
        op := 0b10, laneI := 0xCA70D2B46258AD64, laneJ := 0x358DAAEC0C81A8F3 })
      = some (0x3EB5F9A7D49F3412#64, 0xABBD042CC17FF9AC#64) := by decide +kernel

theorem test_epis128_fast_abc :
    got (fun s => (s.digest0, s.digest1))
      (exec .epis128 { State.reset with
        op := 0b11, laneI := 0xCA70D2B46258AD64, laneJ := 0x358DAAEC0C81A8F3 })
      = some (0x95E7ABC0D5A191D4#64, 0x7A0D3A54756E56A5#64) := by decide +kernel

theorem test_init_171 :
    got (fun s => (s.lanes.s1, s.lanes.s4, s.phase))
      (exec .init (latched 0 0x0123456789ABCDEF 171 []))
      = some (0x95B4759D5CA39FBA#64, 0x035973EDF2F36D54#64, 5#4) := by decide +kernel

theorem test_init_17 :
    got (fun s => (s.lanes.s0, s.lanes.s4, s.phase)) (exec .init (latched 0 1 17 []))
      = some (0x5AE31E589C56E17B#64, 0x047CB9557C9F3B43#64, 7#4) := by decide +kernel

/-- The state after INIT of `msg[k] = k`, `LEN = 100`, `SEED = 0` (spec/95 section 3.4). -/
def at96 (op : BitVec 2) : State :=
  { latched op 0 100 (ramp 100) with
    lanes :=
      { s0 := 0x5AE31E589C56E17A, s1 := 0x96D7BB04E64F6DA9, s2 := 0x7AB1006B26F9EB64
        s3 := 0x21233394220B8457, s4 := 0x047CB9557C9F3B43, s5 := 0xD24F2590C0BCEE28 }
    ring := 0x33EA8F71BB6016D8, q := 100, phase := 5, busy := true }

theorem test_blk96_standard :
    got (fun s => (s.lanes.s5, s.ring, s.q, s.phase)) (exec .blk96 (at96 0b00))
      = some (0x2C2F062F12590449#64, 0xAC180637057C52A0#64, 4#64, 6#4) := by decide +kernel

theorem test_blk96_fast :
    got (fun s => (s.lanes.s0, s.ring)) (exec .blk96 (at96 0b01))
      = some (0x54D9157F545A44C4#64, 0x110DD2E7FC913CC0#64) := by decide +kernel

theorem test_rclose_fast :
    got (·.lanes.s0) (exec .rclose { State.reset with
      op := 0b01, lanes := { s0 := 0x54D9157F545A44C4, s1 := 0, s2 := 0, s3 := 0, s4 := 0, s5 := 0 }
      ring := 0x110DD2E7FC913CC0 })
      = some 0x45D4C798A8CB7804#64 := by decide +kernel

/-- The state after INIT of `msg[k] = k`, `LEN = 48`, `SEED = 0`, standard mode (spec/95 3.3). -/
def at48 : State := { at96 0b00 with len := 48, q := 48, phase := 7 }

/-- The lanes after BLK48 of `LEN = 171`, standard mode (spec/95 3.3), with `P = 144`, `Q = 27`. -/
def at24 (op : BitVec 2) : State :=
  { latched op 0x0123456789ABCDEF 171 (ramp 171) with
    lanes :=
      { s0 := 0x60E123418421BA20, s1 := 0xDF8A99550FF71BF6, s2 := 0x899B2B7E2D3C06B5
        s3 := 0x1337A271B99EC5AC, s4 := 0x71358F7A9648C1F4, s5 := 0x2701F76A2CC07B86 }
    p := 144, q := 27, phase := 8, busy := true }

/-- The same after BLK24, with `P = 168`, `Q = 3`. -/
def atTail : State :=
  { at24 0b00 with
    lanes :=
      { s0 := 0x9ABCF835865BA5A0, s1 := 0xF99A64D1145F403E, s2 := 0xBBB134E1ADD5266B
        s3 := 0xB6902F09263AE05F, s4 := 0x3EC32E442FDA8227, s5 := 0xC580D4B5BEA9655B }
    p := 168, q := 3, phase := 9 }

/-- The state TAIL finds for `msg[k] = k`, `LEN = 17`, `SEED = 1` (R125). -/
def atTail17 : State :=
  { latched 0 1 17 (ramp 17) with
    lanes :=
      { s0 := 0x5AE31E589C56E17B, s1 := 0x96D7BB04E64F6DA8, s2 := 0x7AB1006B26F9EB65
        s3 := 0x21233394220B8457, s4 := 0x047CB9557C9F3B43, s5 := 0xD24F2590C0BCEE28 }
    q := 17, phase := 9, busy := true }

theorem test_blk48_standard :
    got (fun s => (s.lanes.s0, s.lanes.s5, s.p, s.q)) (exec .blk48 at48)
      = some (0x7303B3A251A634C0#64, 0xDF9CFB9AD51C5F2A#64, 48#64, 0#64) := by decide +kernel

theorem test_blk48_skips :
    got (fun s => (s.lanes, s.p, s.q)) (exec .blk48 { at48 with q := 47 })
      = some (at48.lanes, 0#64, 47#64) := by decide +kernel

theorem test_blk24_standard :
    got (fun s => (s.lanes.s1, s.lanes.s3, s.p, s.q)) (exec .blk24 (at24 0b00))
      = some (0xF99A64D1145F403E#64, 0xB6902F09263AE05F#64, 168#64, 3#64) := by decide +kernel

/-- LEN = 171 in fast mode: the first pair after BLK48 of spec/95 3.4. -/
theorem test_blk24_fast :
    got (fun s => (s.lanes.s0, s.lanes.s3))
      (exec .blk24 { at24 0b01 with lanes :=
        { s0 := 0xA28F852792F3C032, s1 := 0, s2 := 0, s3 := 0x75AFF0AE393DD7BF, s4 := 0, s5 := 0 } })
      = some (0xC994DC08377BF52E#64, 0x8FA725C975FA4AFC#64) := by decide +kernel

theorem test_tail_171 :
    got (fun s => (s.laneI, s.laneJ, s.laneK)) (exec .tail atTail)
      = some (0x5731A697B82F6A48#64, 0xCA17F4195440E466#64, 0xE3430A41A2E84586#64) := by decide +kernel

theorem test_tail_17 :
    got (fun s => (s.laneI, s.laneJ, s.laneK)) (exec .tail atTail17)
      = some (0x5DE51B5C9F54E07B#64, 0x99D9B608ED4564A0#64, 0x6ABE0E662AF2E16C#64) := by decide +kernel

/-- The lanes that TAIL leaves for `LEN = 171` (spec/95 section 3.5). -/
def atLayerf (op : BitVec 2) : State :=
  { latched op 0x0123456789ABCDEF 171 [] with
    laneI := 0x5731A697B82F6A48, laneJ := 0xCA17F4195440E466, laneK := 0xE3430A41A2E84586 }

/-- The lanes that LAYERF leaves for `LEN = 171`, standard mode (spec/95 section 3.5). -/
def atEpil (op : BitVec 2) : State :=
  { latched op 0x0123456789ABCDEF 171 [] with
    laneI := 0x3DAEB1F687DCC72F, laneJ := 0xC1F6C8706093FD93, laneK := 0xF92F3573BC531F50 }

/-- The lanes that LAYERF leaves for `LEN = 171`, fast mode (spec/95 section 3.5). -/
def atEpilFast (op : BitVec 2) : State :=
  { latched op 0x0123456789ABCDEF 171 [] with
    laneI := 0x9A16758197423664, laneJ := 0xA1D06D0D3588F3E1, laneK := 0xD4970B0888533073 }

theorem test_layerf_standard :
    got (fun s => (s.laneI, s.laneJ, s.laneK)) (exec .layerf (atLayerf 0b00))
      = some (0x3DAEB1F687DCC72F#64, 0xC1F6C8706093FD93#64, 0xF92F3573BC531F50#64) := by decide +kernel

theorem test_layerf_fast :
    got (fun s => (s.laneI, s.laneJ, s.laneK)) (exec .layerf { atLayerf 0b01 with
      laneI := 0x7A55F3A445ECD085, laneJ := 0xCBC1C6E44516599E, laneK := 0x891A5AFB8585F3AC })
      = some (0x9A16758197423664#64, 0xA1D06D0D3588F3E1#64, 0xD4970B0888533073#64) := by decide +kernel

theorem test_epil64_standard :
    got (·.digest0) (exec .epil64 (atEpil 0b00)) = some 0x4D830BB9EE064BD1#64 := by decide +kernel

theorem test_epil64_fast :
    got (·.digest0) (exec .epil64 (atEpilFast 0b01)) = some 0x5B62E1368579D4FB#64 := by decide +kernel

theorem test_epil128_standard :
    got (fun s => (s.digest0, s.digest1)) (exec .epil128 (atEpil 0b10))
      = some (0x66563C779FC10994#64, 0x2901FB4235ABC66D#64) := by decide +kernel

theorem test_epil128_fast :
    got (fun s => (s.digest0, s.digest1)) (exec .epil128 (atEpilFast 0b11))
      = some (0x6B85EE388D414C74#64, 0x31E7CCE1FFF3AC73#64) := by decide +kernel

/-! ### The commands (examples of R153 to R156) -/

theorem test_hash64_100 :
    got (·.digest0) (exec (.hash64 0 100) (latched 0 0 0 (ramp 100))) = some 0x78933F7AE0FA1A30#64 := by decide +kernel

theorem test_hash64_24 :
    got (·.digest0) (exec (.hash64 0 24) (latched 0 0 0 (ramp 24))) = some 0x4BD9BF89A3E73FCA#64 := by decide +kernel

theorem test_hash64f_17 :
    got (·.digest0) (exec (.hash64f 1 17) (latched 0 0 0 (ramp 17))) = some 0x4E64C18C0337EB44#64 := by decide +kernel

theorem test_hash64f_100 :
    got (·.digest0) (exec (.hash64f 0 100) (latched 0 0 0 (ramp 100))) = some 0xEAD78659841E5200#64 := by decide +kernel

theorem test_hash128_200 :
    got (fun s => (s.digest0, s.digest1)) (exec (.hash128 7 200) (latched 0 0 0 (ramp 200)))
      = some (0xA0A78AB2CE5CB33A#64, 0x3D9DBEE15DC94FA6#64) := by decide +kernel

theorem test_hash128_abc :
    got (fun s => (s.digest0, s.digest1)) (exec (.hash128 0 3) (latched 0 0 0 abc))
      = some (0x3EB5F9A7D49F3412#64, 0xABBD042CC17FF9AC#64) := by decide +kernel

theorem test_hash128f_171 :
    got (fun s => (s.digest0, s.digest1))
      (exec (.hash128f 0x0123456789ABCDEF 171) (latched 0 0 0 (ramp 171)))
      = some (0x6B85EE388D414C74#64, 0x31E7CCE1FFF3AC73#64) := by decide +kernel

theorem test_hash128f_0 :
    got (fun s => (s.digest0, s.digest1)) (exec (.hash128f 0 0) State.reset)
      = some (0xC23B5ED54B4832BB#64, 0x702894363FF40815#64) := by decide +kernel

/-- Program P6 of spec/95: `LEN = 1` against a memory of no bytes. -/
theorem test_missing_byte_faults :
    faultAt (exec (.hash64 0 1) State.reset) = some 0 := by decide +kernel

theorem test_start_while_busy :
    refusal (step (State.presentStart { State.reset with busy := true } ⟨0, 0, 0⟩))
      = some .startWhileBusy := by decide +kernel

/-! ### The host -/

/-- Two commands, the second on the digest of the first. -/
def twoJobs : Program :=
  [fun _ => ⟨0b10, 0, 3, [0x61, 0x62, 0x63]⟩, fun ds => ⟨0b00, 0, 16, ds.flatten ++ List.replicate 16 0⟩]

theorem test_place_bytes :
    got (·.msg) (step { State.reset with request := .place 2 [2, 3] }) = some [(2, 2), (3, 3)] ∧
    Mem.writes (ramp 3) 1 [1, 2] = ramp 3 := by decide +kernel

theorem test_place_while_busy :
    refusal (step { at96 0 with request := .place 99 [0] }) = some .messageChanged := by decide +kernel

theorem test_reset_event :
    got (fun s => (s.phase, s.busy, s.dvalid)) (step { at96 0 with request := .reset })
      = some (0#4, false, false) := by decide +kernel

theorem test_host_view :
    (atEpil 0b10).hostView.digest1 = none ∧
    ({ atEpil 0b10 with dvalid := true } : State).hostView.digest1 = some 0 ∧
    ({ atEpil 0b00 with dvalid := true } : State).hostView.digest1 = none := by decide +kernel

/-- Row 5 of program P6: the third read of TAIL is not the first that misses a byte. -/
theorem test_tail_faults :
    faultAt (exec .tail { atTail17 with len := 20, q := 20, msg := ramp 10 }) = some 10 := by decide +kernel

theorem test_reserved_phase :
    refusal (step (State.presentStart { State.reset with phase := 13 } ⟨0, 0, 0⟩))
      = some (.reservedPhase 13) := by decide +kernel

/-- The first digest of a program is that of HASH128 of `abc` (R155), low word first (R78). -/
theorem test_program :
    (match runProgram twoJobs [] State.reset with
      | .completed ds _ => ds.head?.map leNat
      | .faulted _ => none
      | .refused _ => none) = some 0xABBD042CC17FF9AC3EB5F9A7D49F3412 := by decide +kernel

/-! ### Witnesses: concrete states that meet the hypotheses of each statement, clause by clause -/

theorem witness_DecodeOfEncode : (Instr.rdshort 9 16).wf = true ∧ (Instr.chi 1 2 3).wf = true := by
  decide

theorem witness_EncodeOfDecode :
    decode .cmd (leBytes 17 3) = .ok (.hash64 0 3) ∧ decode .phase [12#8] = .ok .epil128 ∧
    decode .unit (leBytes 25 0) = .ok (.wmul 0 0) := ⟨rfl, rfl, rfl⟩

theorem witness_StepRunsDecoded :
    (State.reset.request = .none ∧ State.reset.phase = Phase.idle.code ∧
      State.reset.unitIn = none) ∧
    ({ State.reset with phase := 12 } : State).phase = Phase.epil128.code ∧
    (State.reset.presentStart ⟨3, 5, 7⟩).request = .start ⟨3, 5, 7⟩ ∧
    ((State.reset.withFetchWord 136 3).request = .call (leBytes 17 3) ∧
      decode .cmd (leBytes 17 3) = .ok (.hash64 0 3)) ∧
    ((State.reset.withFetchWord 200 3).request = .none ∧
      (State.reset.withFetchWord 200 3).phase = 0b0000#4 ∧
      (State.reset.withFetchWord 200 3).unitIn = some (leBytes 25 3) ∧
      decode .unit (leBytes 25 3) = .ok (.chi 0 0 0)) :=
  ⟨⟨rfl, rfl, rfl⟩, rfl, rfl, ⟨rfl, rfl⟩, rfl, rfl, rfl, rfl⟩

theorem witness_FetchedTableWordRuns :
    decodeTableWord 3 0b110 = some (.rdshort 0 0) ∧ decodeTableWord 8 0b1100 = some .epil128 ∧
    decodeTableWord 136 (3 * 2 ^ 128 + 1) = some (.hash128f 0 1) ∧
    decodeTableWord 200 0b001 = some (.rotl 0 0) := by decide +kernel

/-- The codes 13 and 15, with each event of the host. -/
theorem witness_ReservedPhaseCodesRefused :
    (13 ≤ ({ State.reset with phase := 13 } : State).phase.toNat ∧
      ({ State.reset with phase := 13 } : State).request = .none ∧
      ({ State.reset with phase := 13 } : State).busy = false) ∧
    13 ≤ (State.presentStart { State.reset with phase := 15 } ⟨0, 0, 0⟩).phase.toNat ∧
    13 ≤ ({ State.reset with phase := 13, request := .place 0 [1] } : State).phase.toNat ∧
    ({ State.reset with phase := 13, request := .call [] } : State).request ≠ .reset := by decide

/-- Every clause of the sequencing table, each branch at the lengths where it turns. -/
theorem witness_SequencingTable :
    (∃ t, exec .idle State.reset = .next t) ∧
    (∃ t, exec .idle (State.reset.presentStart ⟨0, 0, 16⟩) = .next t) ∧
    (∃ t, exec .idle (State.reset.presentStart ⟨0, 0, 17⟩) = .next t) ∧
    (∃ t, exec .short (latched 0b01 0 16 (ramp 16)) = .next t) ∧
    (∃ t, exec .short (latched 0b10 0 16 (ramp 16)) = .next t) ∧
    (∃ t, exec .epis64 State.reset = .next t) ∧ (∃ t, exec .epis128 State.reset = .next t) ∧
    (∃ t, exec .init (latched 0 0 95 []) = .next t) ∧
    (∃ t, exec .init (latched 0 0 96 []) = .next t) ∧
    (∃ t, exec .blk96 { at96 0 with q := 191 } = .next t) ∧
    (∃ t, exec .blk96 { at96 0 with q := 192 } = .next t) ∧
    (∃ t, exec .rclose State.reset = .next t) ∧
    (∃ t, exec .blk48 at48 = .next t) ∧ (∃ t, exec .blk24 (at24 0) = .next t) ∧
    (∃ t, exec .tail atTail = .next t) ∧
    (∃ t, exec .layerf (atLayerf 0b00) = .next t) ∧ (∃ t, exec .layerf (atLayerf 0b10) = .next t) ∧
    (∃ t, exec .epil64 (atEpil 0) = .next t) ∧ (∃ t, exec .epil128 (atEpil 2) = .next t) := by
  refine ⟨?_, ?_, ?_, ?_, ?_, ?_, ?_, ?_, ?_, ?_, ?_, ?_, ?_, ?_, ?_, ?_, ?_, ?_, ?_⟩ <;>
    exact got_isSome (f := fun s => s.busy) (by decide +kernel)

theorem reset_not_start : ∀ c, State.reset.request ≠ .start c := fun c h => by cases h

theorem witness_ResetEventDiscardsCommand :
    ({ at96 0 with request := .reset } : State).request = .reset := rfl

theorem witness_StartLatchesCommand :
    ((State.reset.presentStart ⟨1, 2, 16⟩).request = .start ⟨1, 2, 16⟩ ∧
      Ready (State.reset.presentStart ⟨1, 2, 16⟩)) ∧
    (((at96 0).presentStart ⟨1, 2, 17⟩).request = .start ⟨1, 2, 17⟩ ∧
      ((at96 0).presentStart ⟨1, 2, 17⟩).busy = true) := ⟨⟨rfl, rfl, rfl⟩, rfl, rfl⟩

theorem witness_IdleWaits : ∀ c, State.reset.request ≠ .start c := reset_not_start

theorem witness_IdleHoldsEverything :
    Quiet State.reset ∧ State.reset.phase = 0b0000#4 := ⟨⟨rfl, rfl⟩, rfl⟩

theorem witness_CommandWhileBusyRefused : (at96 0).busy = true := rfl

theorem witness_Rd32ReadsLittleEndian :
    Holds tens (6#64).toNat ((6#64).toNat + 4) ∧
    FirstMissing tens (7#64).toNat ((7#64).toNat + 4) 10 := by decide +kernel

theorem witness_Rd64ReadsLittleEndian :
    Holds tens (2#64).toNat ((2#64).toNat + 8) ∧
    FirstMissing tens (3#64).toNat ((3#64).toNat + 8) 10 := by decide +kernel

/-- The counts where the clauses of RDSHORT meet: 0, 1, 3, 4, 7, 8, 16; a byte that is missing; and the
first read that misses one, in each of the cases that read (`n = 12` is row 4 of program P6). -/
theorem witness_RdshortPacksBytes :
    (∀ n ∈ [0, 1, 3, 4, 7, 8, 16], Holds (ramp 17) (1#64).toNat ((1#64).toNat + n)) ∧
    ¬ Holds (ramp 16) (1#64).toNat ((1#64).toNat + (16#64).toNat) ∧ (16#64).toNat ≤ 16 ∧
    FaultsAt (ramp 2) (shortReads 0 3) 2 ∧ FaultsAt (ramp 5) (shortReads 0 7) 5 ∧
    FaultsAt (ramp 10) (shortReads 0 12) 10 :=
  ⟨by decide +kernel, by decide +kernel, by decide,
    .inr ⟨by decide, .inr ⟨by decide, .inl (by decide)⟩⟩,
    .inr ⟨by decide, .inl (by decide)⟩, .inr ⟨by decide, .inl (by decide)⟩⟩

theorem witness_ShortMixesSeedAndLength :
    Holds (latched 0 0 0 []).msg 0 (latched 0 0 0 []).len.toNat ∧
    Holds (latched 2 0 16 (ramp 16)).msg 0 (latched 2 0 16 (ramp 16)).len.toNat := by decide +kernel

theorem witness_Blk96ChainsSixSteps :
    Holds (at96 0).msg (at96 0).p.toNat ((at96 0).p.toNat + 96) := by decide +kernel

theorem witness_Blk48FoldsPairs :
    (48 ≤ at48.q.toNat ∧ Holds at48.msg at48.p.toNat (at48.p.toNat + 48)) ∧
    ({ at48 with q := 47 } : State).q.toNat < 48 := by decide +kernel

theorem witness_Blk24FoldsPairs :
    (24 ≤ ({ at24 0 with q := 24 } : State).q.toNat ∧
      Holds (at24 0).msg (at24 0).p.toNat ((at24 0).p.toNat + 24)) ∧
    ({ at24 0 with q := 23 } : State).q.toNat < 24 := by decide +kernel

/-- `LEN` at 23 and 24, `Q` at 3, 16 and 17. -/
theorem witness_TailFoldsRest :
    (Holds atTail.msg atTail.p.toNat (atTail.p.toNat + atTail.q.toNat) ∧ 24 ≤ atTail.len.toNat) ∧
    (Holds atTail17.msg atTail17.p.toNat (atTail17.p.toNat + atTail17.q.toNat) ∧
      atTail17.len.toNat < 24) ∧
    (Holds (ramp 24) (8#64).toNat ((8#64).toNat + (16#64).toNat) ∧
      24 ≤ (latched 0 0 24 (ramp 24)).len.toNat ∧ (latched 0 0 23 (ramp 24)).len.toNat < 24) := by
  decide +kernel

theorem witness_modes :
    fastOf (atLayerf 0b10).op = false ∧ fastOf (atLayerf 0b01).op = true ∧
    fastOf (atEpil 0b00).op = false ∧ fastOf (atEpil 0b11).op = true ∧
    wideOf (atEpil 0b01).op = false ∧ wideOf (atEpil 0b10).op = true := by decide

theorem witness_EngineNeverWritesMessage : ∃ t, exec .blk96 (at96 0) = .next t :=
  got_isSome (f := fun s => s.busy) (by decide +kernel)

/-- With the clauses of `witness_SequencingTable`, whose states present no START. -/
theorem witness_PhasesKeepOtherRegisters :
    (∀ c, atTail.request ≠ .start c) ∧ ∃ t, exec Phase.tail.instr atTail = .next t :=
  ⟨(fun c h => by cases h), got_isSome (f := fun s => s.busy) (by decide +kernel)⟩

theorem witness_HostPlacesBytes :
    ({ State.reset with request := .place 0 [1, 2] } : State).request = .place 0 [1, 2] ∧
    Ready { State.reset with request := .place 0 [1, 2] } := ⟨rfl, rfl, rfl⟩

/-- The last byte of the message changed; the byte after it, and the last byte with its own value. -/
theorem witness_MessageChangeRefused :
    (({ at96 0 with request := .place 99 [9] } : State).busy = true ∧ (at96 0).phase.toNat < 13) ∧
    (∃ k, k < ([9] : List Byte).length ∧ 99 + k < (at96 0).len.toNat ∧
      (at96 0).msg.byte? (99 + k) ≠ ([9] : List Byte)[k]?) ∧
    (∀ k, k < ([99, 9] : List Byte).length → 99 + k < (at96 0).len.toNat →
      (at96 0).msg.byte? (99 + k) = ([99, 9] : List Byte)[k]?) :=
  ⟨⟨rfl, by decide⟩, ⟨0, by decide +kernel⟩, by decide +kernel⟩

theorem witness_OnlyReadersFault :
    exec (.hash64 0 1) State.reset = .fault (.msgFault 0) ∧
    exec (.rd32 0) State.reset = .fault (.msgFault 0) ∧
    exec .blk96 State.reset = .fault (.msgFault 0) := ⟨rfl, rfl, rfl⟩

theorem witness_BlockReadsFaultAtLowest :
    FirstMissing (ramp 95) (0#64).toNat ((0#64).toNat + 96) 95 ∧
    (48 ≤ (48#64).toNat ∧ FirstMissing (ramp 47) (0#64).toNat ((0#64).toNat + 48) 47) ∧
    (24 ≤ (24#64).toNat ∧ FirstMissing [] (0#64).toNat ((0#64).toNat + 24) 0) := by decide +kernel

/-- SHORT of rows 3 and 4 of program P6, TAIL of rows 5 and 8: three words, and three bytes. -/
theorem witness_ShortReadsFaultAtFirst :
    (∀ n ∈ [3, 12], (BitVec.ofNat 64 n).toNat ≤ 16) ∧ (20#64).toNat ≤ 23 ∧ (3#64).toNat ≤ 23 ∧
    FaultsAt (ramp 2) (shortReads 0 3) 2 ∧ FaultsAt (ramp 10) (shortReads 0 12) 10 ∧
    FaultsAt (ramp 10) (tailReads 0 20) 10 ∧ FaultsAt (ramp 170) (tailReads 168 3) 170 :=
  ⟨by decide, by decide, by decide,
    .inr ⟨by decide, .inr ⟨by decide, .inl (by decide)⟩⟩, .inr ⟨by decide, .inl (by decide)⟩,
    .inr ⟨by decide, .inl (by decide)⟩,
    .inr ⟨by decide +kernel, .inr ⟨by decide +kernel, .inl (by decide +kernel)⟩⟩⟩

/-- A state of the invariant, its message held but for the last byte, about to run TAIL. -/
theorem witness_FaultIsMissingMessageByte :
    Inv { atTail17 with msg := ramp 16 } ∧ Quiet { atTail17 with msg := ramp 16 } ∧
    faultAt (step { atTail17 with msg := ramp 16 }) = some 16 :=
  ⟨⟨by decide +kernel, by decide, by decide, .tail, rfl, by unfold phaseInv; decide⟩, ⟨rfl, rfl⟩, by decide +kernel⟩

/-- A state of the invariant in each phase with a read, the message held. -/
theorem witness_HeldMessageNeverStops :
    (Inv (at96 0) ∧ Quiet (at96 0) ∧ Holds (at96 0).msg 0 (at96 0).len.toNat) ∧
    (Inv at48 ∧ Quiet at48 ∧ Holds at48.msg 0 at48.len.toNat) ∧
    (Inv (at24 0) ∧ Quiet (at24 0) ∧ Holds (at24 0).msg 0 (at24 0).len.toNat) ∧
    (Inv atTail ∧ Quiet atTail ∧ Holds atTail.msg 0 atTail.len.toNat) ∧
    Inv State.reset :=
  ⟨⟨⟨by decide +kernel, by decide, by decide, .blk96, rfl, by unfold phaseInv; decide⟩, ⟨rfl, rfl⟩, by decide +kernel⟩,
   ⟨⟨by decide +kernel, by decide, by decide, .blk48, rfl, by unfold phaseInv; decide⟩, ⟨rfl, rfl⟩, by decide +kernel⟩,
   ⟨⟨by decide +kernel, by decide, by decide, .blk24, rfl, by unfold phaseInv; decide⟩, ⟨rfl, rfl⟩, by decide +kernel⟩,
   ⟨⟨by decide +kernel, by decide, by decide, .tail, rfl, by unfold phaseInv; decide⟩, ⟨rfl, rfl⟩, by decide +kernel⟩,
   ⟨by decide, by decide, by decide, .idle, rfl, trivial⟩⟩

theorem witness_StepKeepsInv : Inv (at96 0) ∧ ∃ t, step (at96 0) = .next t :=
  ⟨⟨by decide +kernel, by decide, by decide, .blk96, rfl, by unfold phaseInv; decide⟩,
    got_isSome (f := fun s => s.busy) (by decide +kernel)⟩

/-- START accepted and a message held, at the lengths where the paths turn. -/
theorem witness_CommandsComplete :
    Ready (latched 0 0 0 (ramp 97)) ∧
    ∀ n ∈ [0, 16, 17, 24, 48, 95, 96, 97], Holds (latched 0 0 0 (ramp 97)).msg 0 n :=
  ⟨⟨rfl, rfl⟩, by decide +kernel⟩

/-- The clauses of the run statements at lengths 16, 17 and 97. -/
theorem witness_RunCompletesInStepCount :
    stepCount 16 = 3 ∧ stepCount 17 = 7 ∧ stepCount 97 = 9 ∧
    Holds (ramp 97) 0 (97#64).toNat ∧ Ready State.reset :=
  ⟨by decide, by decide, by decide, by decide +kernel, rfl, rfl⟩

/-- Two states that agree on the message only, the command completing on both; and one byte short. -/
theorem witness_DigestDependsOnInputsOnly :
    (Ready State.reset ∧ Ready { atEpil 1 with msg := [(3, 0)] }) ∧
    AgreeBelow (ramp 4) (ramp 3) 3 ∧
    (∃ t, exec (commandInstr 0b10 5 3) { State.reset with msg := ramp 4 } = .next t) ∧
    AgreeBelow (ramp 2) (ramp 2) 3 ∧
    exec (commandInstr 0b10 5 3) { State.reset with msg := ramp 2 } = .fault (.msgFault 2) :=
  ⟨⟨⟨rfl, rfl⟩, rfl, rfl⟩, by decide +kernel, got_isSome (f := fun s => s.busy) (by decide +kernel),
    by decide +kernel, rfl⟩

theorem witness_ShortDigestIgnoresMode :
    (16#64).toNat ≤ 16 ∧ Ready State.reset ∧ Holds (ramp 16) 0 (16#64).toNat :=
  ⟨by decide, ⟨rfl, rfl⟩, by decide +kernel⟩

theorem witness_EmptyMessageDigest : Ready State.reset := ⟨rfl, rfl⟩

theorem witness_StagesConsumeByLength :
    Ready State.reset ∧ (16 < (17#64).toNat ∧ Holds (ramp 17) 0 (17#64).toNat) ∧
    (16 < (97#64).toNat ∧ Holds (ramp 97) 0 (97#64).toNat ∧ 0 < (97#64).toNat / 96) :=
  ⟨⟨rfl, rfl⟩, by decide +kernel⟩

theorem witness_HostSeesDigestWhenValid :
    State.reset.dvalid = false ∧ ({ atEpil 0b10 with dvalid := true } : State).dvalid = true ∧
    wideOf (atEpil 0b10).op = true ∧ wideOf (atEpil 0b01).op = false := by decide

theorem witness_HostInvokesNoUnit :
    (State.reset.presentStart ⟨0, 0, 0⟩).unitIn = none ∧
    ∃ t, step (State.reset.presentStart ⟨0, 0, 0⟩) = .next t :=
  ⟨rfl, got_isSome (f := fun s => s.busy) (by decide +kernel)⟩

/-- Two commands, the second on the digest of the first; and a command whose bytes are not all placed. -/
theorem witness_ProgramRunsToItsEnd :
    Ready State.reset ∧ Ready (atEpil 1) ∧
    (∀ job ∈ twoJobs, ∀ xs, (job xs).len.toNat ≤ (job xs).bytes.length) ∧
    faultAt (Job.run ⟨0, 0, 3, [0x61]⟩ State.reset) = some 1 :=
  ⟨⟨rfl, rfl⟩, ⟨rfl, rfl⟩, by
    intro job h xs
    simp only [twoJobs, List.mem_cons, List.not_mem_nil, or_false] at h
    rcases h with rfl | rfl <;> simp, by decide +kernel⟩

theorem witness_ConstantsReadByPhase :
    (Config.consts.c0 = { Config.consts with c2 := 0, c3 := 0, c4 := 0, c5 := 0 }.c0 ∧
      Config.consts.c1 = { Config.consts with c2 := 0, c3 := 0, c4 := 0, c5 := 0 }.c1) ∧
    (Config.consts.c5 = { Config.consts with c0 := 0, c1 := 0 }.c5) ∧
    fastOf (atLayerf 0b01).op = true := by decide

theorem witness_AnyConstantsComplete :
    Ready (latched 0 0 0 (ramp 97)) ∧ Holds (latched 0 0 0 (ramp 97)).msg 0 (97#64).toNat :=
  ⟨⟨rfl, rfl⟩, by decide +kernel⟩

end Sys2Proof.Tests
end

/-! SUPPORT and PROOFS for the statements of spec/00_scope.md: the machine of any constants, and the
two grains of R7, which stay together phase by phase. -/

namespace Sys2Proof.Grains

open Sys2Proof.Machine Sys2Proof.Laws

/-! ### The machine of any constants -/

theorem exec_eq_execWith (i : Instr) (s : State) : exec i s = execWith Config.consts i s := by
  cases i <;> rfl

theorem step_eq_stepWith : step = stepWith Config.consts := by
  have hexec : exec = execWith Config.consts := funext₂ exec_eq_execWith
  funext s
  rw [step, stepWith, hexec]

/-- Settles O55: the arms of the two dispatchers are the same, one by one. -/
theorem machineAtDefaultConstants : Obligations.MachineAtDefaultConstants := by
  refine ⟨exec_eq_execWith, congrFun step_eq_stepWith, ?_⟩
  rw [Sys2Proof.core, coreWith, step_eq_stepWith]

theorem runSteps_eq_runOf (n : Nat) (s : State) :
    runSteps n s = runOf (stepWith Config.consts) n s := by
  rw [runSteps, step_eq_stepWith]

/-- `START` presented is what the machine of any constants takes. -/
theorem stepWith_presentStart (k : Config.Consts) (c : Command) (s : State) :
    stepWith k (s.presentStart c) = start c s := rfl

/-- With nothing presented, outside IDLE the machine of any constants runs the row of its phase. -/
theorem stepWith_phase (k : Config.Consts) {s : State} {x : Phase} (hr : s.request = .none)
    (hp : s.phase = x.code) (hx : x ≠ .idle) : stepWith k s = execWith k x.instr s :=
  stepOf_phase (execWith k) s x hr hp fun h => absurd h hx

/-- The four commands are one composition, told apart by the code and by the epilogues it selects. -/
theorem execWith_commandInstr (k : Config.Consts) (op : BitVec 2) (seed len : Word) (s : State) :
    execWith k (commandInstr op seed len) s =
      transaction k ⟨op, seed, len⟩ (execWith k (afterShort op).instr)
        (execWith k (afterLayerf op).instr) s := by
  have hop : op = 0b00#2 ∨ op = 0b01#2 ∨ op = 0b10#2 ∨ op = 0b11#2 := by revert op; decide
  rcases hop with rfl | rfl | rfl | rfl <;> rfl

/-! ### Runs -/

theorem andThen_pure (r : Result) : andThen r .next = r := by cases r <;> rfl

theorem runOf_one (st : State → Result) (s : State) : runOf st 1 s = st s := andThen_pure (st s)

/-- A run of `n + m` steps is a run of `n` and then one of `m`. -/
theorem runOf_add (st : State → Result) (n m : Nat) (s : State) :
    runOf st (n + m) s = andThen (runOf st n s) (runOf st m) := by
  induction n generalizing s with
  | zero => rw [Nat.zero_add]; rfl
  | succ n ih => rw [Nat.add_right_comm, runOf_succ, runOf_succ, andThen_assoc, funext ih]

/-- After a result two continuations that agree on its next state are the same. -/
theorem andThen_congr {r : Result} {f g : State → Result} (h : ∀ t, r = .next t → f t = g t) :
    andThen r f = andThen r g := by
  cases r with
  | next t => exact h t rfl
  | fault e => rfl
  | refused e => rfl

/-! ### What a result can be -/

/-- A next state of `r` has `Q`, and under `H` there is one. -/
def Answers (H : Prop) (r : Result) (Q : State → Prop) : Prop :=
  (∀ t, r = .next t → Q t) ∧ (H → ∃ t, r = .next t)

theorem answers_next {H : Prop} {t : State} {Q : State → Prop} (h : Q t) : Answers H (.next t) Q :=
  ⟨fun _ ht => by cases ht; exact h, fun _ => ⟨t, rfl⟩⟩

theorem answers_onRead {α : Type} {H : Prop} {r : Except Fault α} {f : α → Result}
    {Q : State → Prop} (hr : H → ∃ v, r = .ok v) (hf : ∀ v, Answers H (f v) Q) :
    Answers H (onRead r f) Q := by
  constructor
  · intro t ht
    obtain ⟨v, -, hv⟩ := onRead_next ht
    exact (hf v).1 t hv
  · intro hH
    obtain ⟨v, rfl⟩ := hr hH
    exact (hf v).2 hH

theorem answers_andThen {H : Prop} {r : Result} {f : State → Result} {P Q : State → Prop}
    (hr : Answers H r P) (hf : ∀ t, P t → Answers H (f t) Q) : Answers H (andThen r f) Q := by
  constructor
  · intro t ht
    obtain ⟨u, hu, hut⟩ := andThen_eq_next ht
    exact (hf u (hr.1 u hu)).1 t hut
  · intro hH
    obtain ⟨u, rfl⟩ := hr.2 hH
    exact (hf u (hr.1 u rfl)).2 hH

/-! ### The states of a command in progress -/

/-- The fields that no phase of the sequencer writes. -/
structure Context where
  op : BitVec 2
  seed : Word
  len : Word
  msg : Mem
  request : Request
  unitIn : Option (List Byte)
  unitOut : UnitOut

/-- The fields of a state that no phase of the sequencer writes. -/
def contextOf (s : State) : Context :=
  ⟨s.op, s.seed, s.len, s.msg, s.request, s.unitIn, s.unitOut⟩

/-- Those fields once `c` is started from `b`: the operands latched, `START` taken (R150), the rest
as it was. -/
def startedContext (c : Command) (b : State) : Context :=
  ⟨c.op, c.seed, c.len, b.msg, .none, b.unitIn, b.unitOut⟩

/-- The command `c`, started from `b`, is about to take phase `x`. -/
structure InPhase (c : Command) (b : State) (x : Phase) (s : State) : Prop where
  context : contextOf s = startedContext c b
  phase : s.phase = x.code
  inv : phaseInv s x

/-- The command `c`, started from `b`, has ended. -/
structure Ended (c : Command) (b s : State) : Prop where
  context : contextOf s = startedContext c b
  completed : Completed c s

section
variable {c : Command} {b s : State} {x : Phase}

theorem InPhase.op_eq (h : InPhase c b x s) : s.op = c.op := congrArg Context.op h.context
theorem InPhase.len_eq (h : InPhase c b x s) : s.len = c.len := congrArg Context.len h.context
theorem InPhase.msg_eq (h : InPhase c b x s) : s.msg = b.msg := congrArg Context.msg h.context
theorem InPhase.request_eq (h : InPhase c b x s) : s.request = .none :=
  congrArg Context.request h.context

/-- What completes keeps the operands of its command (R157). -/
theorem ended_complete (h : contextOf s = startedContext c b) : Ended c b s.complete :=
  ⟨h, rfl, rfl, rfl, congrArg Context.op h, congrArg Context.seed h, congrArg Context.len h⟩

end

/-! ### Reads of held bytes -/

/-- A fold whose every step succeeds succeeds. -/
theorem foldlM_ok {α β : Type} (f : β → α → Except Fault β) (l : List α)
    (h : ∀ acc, ∀ x ∈ l, ∃ v, f acc x = .ok v) (acc : β) : ∃ v, l.foldlM f acc = .ok v := by
  induction l generalizing acc with
  | nil => exact ⟨acc, rfl⟩
  | cons x l ih =>
    obtain ⟨v, hv⟩ := h acc x List.mem_cons_self
    rw [List.foldlM_cons, hv, bind_ok]
    exact ih (fun acc y hy => h acc y (List.mem_cons_of_mem x hy)) v

section
variable {m : Mem} {p : Nat}

/-- A 64-bit read inside a held range. -/
theorem rd64_ok {lo hi a : Nat} (h : Holds m lo hi) (hlo : lo ≤ a) (hhi : a + 8 ≤ hi) :
    ∃ v, rd64 m a = .ok v :=
  ⟨_, rd64_of_holds m a fun x h1 h2 => h x (by omega) (by omega)⟩

theorem blk96Mix_ok (fast : Bool) (l : Lanes) (ring : Word) (h : Holds m p (p + 96)) :
    ∃ v, blk96Mix fast m p l ring = .ok v := by
  refine foldlM_ok _ _ (fun ⟨l, prev⟩ ⟨k, x, y⟩ hx => ?_) _
  have hk : k ≤ 5 := by
    simp only [ringPairs, List.mem_cons, Prod.mk.injEq, List.not_mem_nil, or_false] at hx
    omega
  obtain ⟨v, hv⟩ := rd64_ok (a := p + 16 * k) h (by omega) (by omega)
  obtain ⟨w, hw⟩ := rd64_ok (a := p + 16 * k + 8) h (by omega) (by omega)
  simp only [blk96Step, hv, hw, bind_ok, pure_ok]
  exact ⟨_, rfl⟩

theorem blk48Mix_ok (fast : Bool) (l : Lanes) (h : Holds m p (p + 48)) :
    ∃ v, blk48Mix fast m p l = .ok v := by
  refine foldlM_ok _ _ (fun l ⟨k, x, y⟩ hx => ?_) _
  have hk : k ≤ 2 := by
    simp only [List.mem_cons, Prod.mk.injEq, List.not_mem_nil, or_false] at hx
    omega
  obtain ⟨v, hv⟩ := rd64_ok (a := p + 16 * k) h (by omega) (by omega)
  obtain ⟨w, hw⟩ := rd64_ok (a := p + 16 * k + 8) h (by omega) (by omega)
  simp only [blk48Step, hv, hw, bind_ok, pure_ok]
  exact ⟨_, rfl⟩

theorem blk24Mix_ok (fast : Bool) (l : Lanes) (h : Holds m p (p + 24)) :
    ∃ v, blk24Mix fast m p l = .ok v := by
  refine foldlM_ok _ _ (fun l ⟨k, x, y⟩ hx => ?_) _
  have hk : k ≤ 2 := by
    simp only [List.mem_cons, Prod.mk.injEq, List.not_mem_nil, or_false] at hx
    omega
  obtain ⟨v, hv⟩ := rd64_ok (a := p + 8 * k) h (by omega) (by omega)
  simp only [blk24Step, hv, bind_ok, pure_ok]
  exact ⟨_, rfl⟩

/-- The tail's reads stay inside its `q` bytes (R125). -/
theorem tailRead_ok {q : Nat} (h : Holds m p (p + q)) : ∃ v, tailRead m p q = .ok v := by
  unfold tailRead
  split
  · rw [rdshort_of_holds m p q h, bind_ok]
    exact ⟨_, rfl⟩
  · obtain ⟨u, hu⟩ := rd64_ok (a := p) h (by omega) (by omega)
    obtain ⟨v, hv⟩ := rd64_ok (a := p + 8) h (by omega) (by omega)
    obtain ⟨w, hw⟩ := rd64_ok (a := p + q - 8) h (by omega) (by omega)
    rw [hu, hv, hw]
    exact ⟨_, rfl⟩

end

/-! ### One phase -/

/-- Consuming `n` of the `Q` bytes left wraps neither `P` nor `Q` (R25). -/
theorem consume_toNat {p q len n : Word} {d : Nat} (hd : n.toNat = d) (hdq : d ≤ q.toNat)
    (h : p.toNat + q.toNat = len.toNat) :
    (p + n).toNat = p.toNat + d ∧ (q - n).toNat = q.toNat - d := by
  subst hd
  have hlen := len.isLt
  exact ⟨BitVec.toNat_add_of_lt (by omega), BitVec.toNat_sub_of_le hdq⟩

section
variable {k : Config.Consts} {c : Command} {b s : State}

/-- The message is held as far as the command reads it (R57). -/
abbrev Held (c : Command) (b : State) : Prop := Holds b.msg 0 c.len.toNat

/-- A range of the message is held in every phase. -/
theorem InPhase.holds {x : Phase} (h : InPhase c b x s) (hheld : Held c b) {lo hi : Nat}
    (hi_le : hi ≤ s.len.toNat) : Holds s.msg lo hi := by
  rw [h.len_eq] at hi_le
  rw [h.msg_eq]
  exact fun y _ hy => hheld y (Nat.zero_le y) (by omega)

/-- After SHORT the lengths are still short, and the epilogue is the one of `W128` (R152). -/
theorem phaseInv_afterShort {t : State} (h : t.len.toNat ≤ 16) : phaseInv t (afterShort t.op) := by
  unfold afterShort
  cases hw : wideOf t.op with
  | false => exact ⟨h, hw⟩
  | true => exact ⟨h, hw⟩

/-- LAYERF leaves the lengths alone, and the epilogue is the one of `W128` (R152). -/
theorem phaseInv_afterLayerf {t : State} (h : phaseInv t .layerf) :
    phaseInv t (afterLayerf t.op) := by
  obtain ⟨hlen, hq, hpq⟩ := h
  unfold afterLayerf
  cases hw : wideOf t.op with
  | false => exact ⟨hlen, hq, hpq, hw⟩
  | true => exact ⟨hlen, hq, hpq, hw⟩

theorem shortWith_answers (h : InPhase c b .short s) :
    Answers (Held c b) (shortWith k s) (InPhase c b (afterShort c.op)) := by
  have hlen : s.len.toNat ≤ 16 := h.inv
  rw [← h.op_eq]
  refine answers_onRead (fun hheld => ⟨_, rdshort_of_holds s.msg 0 s.len.toNat ?_⟩) fun ⟨i, j⟩ =>
    answers_next ⟨h.context, rfl, phaseInv_afterShort hlen⟩
  exact h.holds hheld (by omega)

/-- Both epilogues of the short path end the command. -/
theorem epis_answers (h : InPhase c b (afterShort c.op) s) :
    Answers (Held c b) (execWith k (afterShort c.op).instr s) (Ended c b) := by
  unfold afterShort
  split
  · exact answers_next (ended_complete h.context)
  · exact answers_next (ended_complete h.context)

/-- Where the blocks of 96 bytes lead: RCLOSE only if there were any (R152). -/
def afterBlocks (len : Word) : Phase := if len.toNat ≥ 96 then .rclose else .blk48

/-- Where the sequencer stands with `n` more blocks of 96 bytes to take (R126). -/
def BlocksLeft (c : Command) (b : State) (n : Nat) (s : State) : Prop :=
  InPhase c b (if n = 0 then afterBlocks c.len else .blk96) s ∧ s.q.toNat / 96 = n

theorem initWith_answers (h : InPhase c b .init s) :
    Answers (Held c b) (initWith k s) (BlocksLeft c b (c.len.toNat / 96)) := by
  have hlen : 16 < s.len.toNat := h.inv
  rw [← h.len_eq]
  refine answers_next ⟨?_, rfl⟩
  rw [← h.len_eq]
  by_cases h96 : 96 ≤ s.len.toNat
  · have hy : afterInit s.len = .blk96 := if_pos h96
    rw [if_neg (by omega)]
    exact ⟨h.context, congrArg Phase.code hy, h96, rfl, Nat.zero_add _⟩
  · have hy : afterInit s.len = .blk48 := if_neg h96
    rw [if_pos (by omega), afterBlocks, if_neg h96]
    exact ⟨h.context, congrArg Phase.code hy, hlen,
      (Nat.mod_eq_of_lt (Nat.lt_of_not_le h96)).symm, Nat.zero_add _⟩

theorem execBlk96_answers {n : Nat} (h : BlocksLeft c b (n + 1) s) :
    Answers (Held c b) (execBlk96 s) (BlocksLeft c b n) := by
  obtain ⟨h, hn⟩ := h
  obtain ⟨hq, hp, hpq⟩ := h.inv
  obtain ⟨hp', hq'⟩ := consume_toNat (n := 96) (d := 96) rfl hq hpq
  refine answers_onRead (fun hheld => blk96Mix_ok _ _ _ (h.holds hheld (by omega))) fun ⟨l, ring⟩ =>
    answers_next ⟨?_, ?_⟩
  · by_cases hn0 : n = 0
    · have hy : afterBlk96 (s.q - 96) = .rclose := if_neg (by omega)
      rw [if_pos hn0, afterBlocks, ← h.len_eq, if_pos (by omega)]
      refine ⟨h.context, congrArg Phase.code hy, ?_⟩
      simp only [phaseInv, setPhase_len, setPhase_p, setPhase_q, hp', hq']
      omega
    · have hy : afterBlk96 (s.q - 96) = .blk96 := if_pos (by omega)
      rw [if_neg hn0]
      refine ⟨h.context, congrArg Phase.code hy, ?_⟩
      simp only [phaseInv, setPhase_len, setPhase_p, setPhase_q, hp', hq']
      omega
  · simp only [setPhase_q, hq']
    omega

theorem execRclose_answers (h : InPhase c b .rclose s) :
    Answers (Held c b) (execRclose s) (InPhase c b .blk48) := by
  obtain ⟨hlen, hq, hpq⟩ := h.inv
  exact answers_next ⟨h.context, rfl, Nat.lt_of_lt_of_le (by decide) hlen, hq, hpq⟩

theorem execBlk48_answers (h : InPhase c b .blk48 s) :
    Answers (Held c b) (execBlk48 s) (InPhase c b .blk24) := by
  obtain ⟨hlen, hq, hpq⟩ := h.inv
  unfold execBlk48
  split
  next h48 =>
    obtain ⟨hp', hq'⟩ := consume_toNat (n := 48) (d := 48) rfl h48 hpq
    refine answers_onRead (fun hheld => blk48Mix_ok _ _ (h.holds hheld (by omega))) fun l =>
      answers_next ⟨h.context, rfl, ?_⟩
    simp only [phaseInv, setPhase_len, setPhase_p, setPhase_q, hp', hq']
    omega
  next h48 =>
    refine answers_next ⟨h.context, rfl, ?_⟩
    simp only [phaseInv, setPhase_len, setPhase_p, setPhase_q]
    omega

theorem execBlk24_answers (h : InPhase c b .blk24 s) :
    Answers (Held c b) (execBlk24 s) (InPhase c b .tail) := by
  obtain ⟨hlen, hq, hpq⟩ := h.inv
  unfold execBlk24
  split
  next h24 =>
    obtain ⟨hp', hq'⟩ := consume_toNat (n := 24) (d := 24) rfl h24 hpq
    refine answers_onRead (fun hheld => blk24Mix_ok _ _ (h.holds hheld (by omega))) fun l =>
      answers_next ⟨h.context, rfl, ?_⟩
    simp only [phaseInv, setPhase_len, setPhase_p, setPhase_q, hp', hq']
    omega
  next h24 =>
    refine answers_next ⟨h.context, rfl, ?_⟩
    simp only [phaseInv, setPhase_len, setPhase_p, setPhase_q]
    omega

theorem execTail_answers (h : InPhase c b .tail s) :
    Answers (Held c b) (execTail s) (InPhase c b .layerf) := by
  obtain ⟨hlen, hq, hpq⟩ := h.inv
  refine answers_onRead (fun hheld => tailRead_ok (h.holds hheld (by omega))) fun ⟨i, j, l⟩ => ?_
  dsimp only
  split
  · exact answers_next ⟨h.context, rfl, hlen, hq, hpq⟩
  · exact answers_next ⟨h.context, rfl, hlen, hq, hpq⟩

theorem layerfWith_answers (h : InPhase c b .layerf s) :
    Answers (Held c b) (layerfWith k s) (InPhase c b (afterLayerf c.op)) := by
  rw [← h.op_eq]
  exact answers_next ⟨h.context, rfl, phaseInv_afterLayerf (t := State.setPhase _ _) h.inv⟩

/-- Both long epilogues end the command. -/
theorem epil_answers (h : InPhase c b (afterLayerf c.op) s) :
    Answers (Held c b) (execWith k (afterLayerf c.op).instr s) (Ended c b) := by
  unfold afterLayerf
  split
  · exact answers_next (ended_complete h.context)
  · exact answers_next (ended_complete h.context)

/-- An accepted START opens the path its length selects (R150, R151). -/
theorem start_answers {H : Prop} (hH : H → Ready b) :
    Answers H (start c b) (InPhase c b (startPhase c.len)) := by
  have key : ∀ hb : Ready b, Answers H (start c b) (InPhase c b (startPhase c.len)) := by
    intro hb
    rw [start_of_ready c b hb]
    refine answers_next ⟨rfl, rfl, ?_⟩
    by_cases hlen : c.len.toNat ≤ 16
    · rw [startPhase, if_pos hlen]; exact hlen
    · rw [startPhase, if_neg hlen]; exact Nat.lt_of_not_le hlen
  exact ⟨fun t ht => (key (start_next ht)).1 t ht, fun hh => (key (hH hh)).2 hh⟩

end

/-! ### Stages: a counted run of the sequencer that is one function of the transaction -/

/-- From every state of `P`, `n` steps of the machine of the constants `k` answer what `f` answers;
`f` ends in `Q`, and does end where the message of `c` is held. -/
def Stage (k : Config.Consts) (c : Command) (b : State) (n : Nat) (f : State → Result)
    (P Q : State → Prop) : Prop :=
  ∀ s, P s → runOf (stepWith k) n s = f s ∧ Answers (Held c b) (f s) Q

section
variable {k : Config.Consts} {c : Command} {b : State} {P Q R : State → Prop}

theorem Stage.skip (h : ∀ s, P s → Q s) : Stage k c b 0 .next P Q :=
  fun s hs => ⟨rfl, answers_next (h s hs)⟩

/-- One stage after another. -/
theorem Stage.comp {n m : Nat} {f g : State → Result} (hf : Stage k c b n f P Q)
    (hg : Stage k c b m g Q R) : Stage k c b (n + m) (fun s => andThen (f s) g) P R := by
  intro s hs
  obtain ⟨hrun, hans⟩ := hf s hs
  refine ⟨?_, answers_andThen hans fun t ht => (hg t ht).2⟩
  rw [runOf_add, hrun]
  exact andThen_congr fun t ht => (hg t (hans.1 t ht)).1

/-- One step of the sequencer is one phase. -/
theorem Stage.of_phase {x : Phase} (hx : x ≠ .idle) (hP : ∀ s, P s → InPhase c b x s)
    (h : ∀ s, P s → Answers (Held c b) (execWith k x.instr s) Q) :
    Stage k c b 1 (execWith k x.instr) P Q := by
  intro s hs
  have hin := hP s hs
  refine ⟨?_, h s hs⟩
  rw [runOf_one, stepWith_phase k hin.request_eq hin.phase hx]

/-- One step of the sequencer is one phase, from every state about to take it. -/
theorem Stage.of_inPhase {x : Phase} (hx : x ≠ .idle)
    (h : ∀ {s}, InPhase c b x s → Answers (Held c b) (execWith k x.instr s) Q) :
    Stage k c b 1 (execWith k x.instr) (InPhase c b x) Q :=
  Stage.of_phase hx (fun _ hs => hs) fun _ hs => h hs

/-- All blocks of 96 bytes (R121, R126). -/
theorem stage_blocks (n : Nat) :
    Stage k c b n (times execBlk96 n) (BlocksLeft c b n) (InPhase c b (afterBlocks c.len)) := by
  induction n with
  | zero => exact Stage.skip fun s hs => hs.1
  | succ n ih =>
    have hone : Stage k c b 1 execBlk96 (BlocksLeft c b (n + 1)) (BlocksLeft c b n) :=
      Stage.of_phase (x := .blk96) (by decide) (fun s hs => hs.1) fun s hs => execBlk96_answers hs
    have hall := Stage.comp hone ih
    rwa [Nat.add_comm 1 n] at hall

/-- RCLOSE where there were blocks of 96 bytes, else nothing (R152). -/
theorem stage_close :
    Stage k c b (if c.len.toNat ≥ 96 then 1 else 0)
      (fun s => if c.len.toNat ≥ 96 then execRclose s else .next s)
      (InPhase c b (afterBlocks c.len)) (InPhase c b .blk48) := by
  unfold afterBlocks
  by_cases h96 : c.len.toNat ≥ 96
  · simp only [if_pos h96]
    exact Stage.of_inPhase (x := .rclose) (by decide) execRclose_answers
  · simp only [if_neg h96]
    exact Stage.skip fun s hs => hs

theorem stage_shortPath :
    Stage k c b 2 (shortPath k (execWith k (afterShort c.op).instr))
      (InPhase c b .short) (Ended c b) := by
  have hne : afterShort c.op ≠ .idle := by unfold afterShort; split <;> decide
  have hshort : Stage k c b 1 (shortWith k) (InPhase c b .short) (InPhase c b (afterShort c.op)) :=
    Stage.of_inPhase (x := .short) (by decide) shortWith_answers
  exact Stage.comp hshort (Stage.of_inPhase hne epis_answers)

theorem stage_longPath :
    Stage k c b (6 + c.len.toNat / 96 + if c.len.toNat ≥ 96 then 1 else 0)
      (longPath k c.len.toNat (execWith k (afterLayerf c.op).instr))
      (InPhase c b .init) (Ended c b) := by
  have hne : afterLayerf c.op ≠ .idle := by unfold afterLayerf; split <;> decide
  have hinit : Stage k c b 1 (initWith k) (InPhase c b .init) (BlocksLeft c b (c.len.toNat / 96)) :=
    Stage.of_inPhase (x := .init) (by decide) initWith_answers
  have h48 : Stage k c b 1 execBlk48 (InPhase c b .blk48) (InPhase c b .blk24) :=
    Stage.of_inPhase (x := .blk48) (by decide) execBlk48_answers
  have h24 : Stage k c b 1 execBlk24 (InPhase c b .blk24) (InPhase c b .tail) :=
    Stage.of_inPhase (x := .blk24) (by decide) execBlk24_answers
  have htail : Stage k c b 1 execTail (InPhase c b .tail) (InPhase c b .layerf) :=
    Stage.of_inPhase (x := .tail) (by decide) execTail_answers
  have hlayerf : Stage k c b 1 (layerfWith k) (InPhase c b .layerf)
      (InPhase c b (afterLayerf c.op)) :=
    Stage.of_inPhase (x := .layerf) (by decide) layerfWith_answers
  have hepil : Stage k c b 1 (execWith k (afterLayerf c.op).instr)
      (InPhase c b (afterLayerf c.op)) (Ended c b) :=
    Stage.of_inPhase hne epil_answers
  have hall := hinit.comp <| (stage_blocks _).comp <| stage_close.comp <| h48.comp <| h24.comp <|
    htail.comp <| hlayerf.comp hepil
  have hcount : ∀ n m : Nat, 6 + n + m = 1 + (n + (m + (1 + (1 + (1 + (1 + 1)))))) := by omega
  rw [hcount]
  exact hall

/-- The path that `LEN` selects (R151). -/
theorem stage_path :
    Stage k c b (stepCount c.len - 1)
      (fun s => if c.len.toNat ≤ 16 then shortPath k (execWith k (afterShort c.op).instr) s
        else longPath k c.len.toNat (execWith k (afterLayerf c.op).instr) s)
      (InPhase c b (startPhase c.len)) (Ended c b) := by
  unfold startPhase stepCount
  by_cases hlen : c.len.toNat ≤ 16
  · simp only [if_pos hlen]
    exact stage_shortPath
  · simp only [if_neg hlen]
    have hcount : ∀ n m : Nat, 7 + n + m - 1 = 6 + n + m := by omega
    rw [hcount]
    exact stage_longPath

end

/-! ### The two grains -/

/-- A command as one transaction is START and the rest of `stepCount` steps, whatever it answers. -/
theorem transaction_eq_runOf (k : Config.Consts) (op : BitVec 2) (seed len : Word) (s : State) :
    execWith k (commandInstr op seed len) s =
      runOf (stepWith k) (stepCount len) (s.presentStart ⟨op, seed, len⟩) := by
  have hcount : stepCount len = stepCount len - 1 + 1 := by unfold stepCount; split <;> omega
  rw [execWith_commandInstr, hcount, runOf_succ, stepWith_presentStart]
  refine andThen_congr fun t ht => ?_
  have hin : InPhase ⟨op, seed, len⟩ s (startPhase len) t := (start_answers id).1 t ht
  exact (stage_path t hin).1.symm

/-- Where START is accepted and the message held a command completes, with the operands latched and
the message and the bench as they were (R157, R158). -/
theorem transaction_ends (k : Config.Consts) (op : BitVec 2) (seed len : Word) (s : State)
    (hready : Ready s) (hheld : Holds s.msg 0 len.toNat) :
    ∃ t, execWith k (commandInstr op seed len) s = .next t ∧ Ended ⟨op, seed, len⟩ s t := by
  have hans : Answers (Held ⟨op, seed, len⟩ s) (execWith k (commandInstr op seed len) s)
      (Ended ⟨op, seed, len⟩ s) := by
    rw [execWith_commandInstr]
    exact answers_andThen (start_answers fun _ => hready) fun t ht => (stage_path t ht).2
  obtain ⟨t, ht⟩ := hans.2 hheld
  exact ⟨t, ht, hans.1 t ht⟩

/-- Settles O43: each command is `commandInstr` at its code, and the machine is the one of the
default constants. -/
theorem grainsAgree : Obligations.GrainsAgree := by
  unfold Obligations.GrainsAgree
  intro s seed len
  have h : ∀ op, exec (commandInstr op seed len) s =
      runSteps (stepCount len) (s.presentStart ⟨op, seed, len⟩) := fun op => by
    rw [exec_eq_execWith, runSteps_eq_runOf, transaction_eq_runOf]
  exact ⟨h 0b00#2, h 0b01#2, h 0b10#2, h 0b11#2⟩

/-- Settles O57: the transaction ends, and the counted run is equal to it. -/
theorem anyConstantsComplete : Obligations.AnyConstantsComplete := by
  unfold Obligations.AnyConstantsComplete
  intro k op seed len s hready hheld
  obtain ⟨t, ht, hend⟩ := transaction_ends k op seed len s hready hheld
  exact ⟨t, ht, hend.completed, by rw [← transaction_eq_runOf, ht]⟩

end Sys2Proof.Grains

/-! SUPPORT and PROOFS for the statements of spec/10_state.md: what a step can be, what each phase
writes, and the invariant of the sequencer. -/

namespace Sys2Proof.Registers

open Sys2Proof.Machine Sys2Proof.Laws Sys2Proof.Grains

/-! ### What a step can be -/

theorem eq_code_of_ofCode {c : BitVec 4} {x : Phase} (h : Phase.ofCode c = some x) :
    c = x.code := by
  revert c x; decide

theorem fetchPhase_eq_ok {s : State} {i : Instr} (h : fetchPhase s = .ok i) :
    ∃ x : Phase, s.phase = x.code ∧ i = x.instr := by
  unfold fetchPhase at h
  split at h
  next x hx =>
    cases h
    exact ⟨x, eq_code_of_ofCode hx, rfl⟩
  next => cases h

theorem fetchPacket_eq_ok_iff {f : Format} {bs : List Byte} {i : Instr} :
    fetchPacket f bs = .ok i ↔ decode f bs = .ok i := by
  unfold fetchPacket
  cases decode f bs <;> simp

theorem fetchRow_of_bench {s : State} {bs : List Byte} (hp : s.phase = Phase.idle.code)
    (hu : s.unitIn = some bs) : fetchRow s = fetchPacket .unit bs := by
  simp [fetchRow, hu, hp]

/-- With nothing presented the instruction is the row of `PHASE`, or in IDLE the bench's unit
function (R24, log 4). -/
theorem fetchRow_eq_ok {s : State} {i : Instr} (h : fetchRow s = .ok i) :
    (∃ x : Phase, s.phase = x.code ∧ i = x.instr) ∨
    (∃ bs, s.phase = Phase.idle.code ∧ s.unitIn = some bs ∧ decode .unit bs = .ok i) := by
  by_cases hbench : s.unitIn.isSome = true ∧ s.phase = Phase.idle.code
  · obtain ⟨hsome, hp⟩ := hbench
    obtain ⟨bs, hu⟩ := Option.isSome_iff_exists.1 hsome
    rw [fetchRow_of_bench hp hu, fetchPacket_eq_ok_iff] at h
    exact .inr ⟨bs, hp, hu, h⟩
  · have hrow : fetchRow s = fetchPhase s := by
      unfold fetchRow
      split
      next bs hu => exact if_neg fun hp => hbench ⟨by rw [hu]; rfl, hp⟩
      next => rfl
    exact .inl (fetchPhase_eq_ok (hrow ▸ h))

theorem step_call {s : State} {bs : List Byte} (hr : s.request = .call bs) {i : Instr}
    (hd : decode .cmd bs = .ok i) : step s = exec i s := by
  simp [step, stepOf, hr, fetch, fetchPacket_eq_ok_iff.2 hd]

theorem step_bench {s : State} {bs : List Byte} (hr : s.request = .none)
    (hp : s.phase = Phase.idle.code) (hu : s.unitIn = some bs) {i : Instr}
    (hd : decode .unit bs = .ok i) : step s = exec i s := by
  simp [step, stepOf, hr, fetch, fetchRow_of_bench hp hu, fetchPacket_eq_ok_iff.2 hd]

/-- What the machine does in a step that goes from `s` to `t`. -/
inductive StepCase (s t : State) : Prop
  /-- the reset event (R190) -/
  | reset (ht : t = s.resetEvent)
  /-- the host places bytes (R161) -/
  | place {base : Nat} {bs : List Byte} (ht : hostPlace base bs s = .next t)
  /-- IDLE takes START (R150) -/
  | start {c : Command} (ht : start c s = .next t)
  /-- a command as one transaction (log 1) -/
  | call {bs : List Byte} {i : Instr} (hd : decode .cmd bs = .ok i) (ht : exec i s = .next t)
  /-- the phase of the sequencer (R24) -/
  | phase {x : Phase} (hr : s.request = .none) (hp : s.phase = x.code)
      (ht : exec x.instr s = .next t)
  /-- the unit function on the bench (log 4) -/
  | bench {bs : List Byte} {i : Instr} (hd : decode .unit bs = .ok i) (ht : exec i s = .next t)

/-- Every step that answers a next state is one of the six. -/
theorem step_next {s t : State} (h : step s = .next t) : StepCase s t := by
  cases hr : s.request with
  | reset =>
    rw [step_reset s hr] at h
    cases h
    exact .reset rfl
  | place base bs => exact .place (step_place s base bs hr ▸ h)
  | start c => exact .start (step_start s c hr ▸ h)
  | call bs =>
    simp only [step, stepOf, hr, fetch] at h
    split at h
    next i hi => exact .call (fetchPacket_eq_ok_iff.1 hi) h
    next => cases h
  | none =>
    simp only [step, stepOf, hr, fetch] at h
    split at h
    next i hi =>
      obtain ⟨x, hp, rfl⟩ | ⟨bs, -, -, hd⟩ := fetchRow_eq_ok hi
      · exact .phase hr hp h
      · exact .bench hd h
    next => cases h

/-! ### Which instructions a packet can hold -/

/-- A command packet holds one of the four commands. -/
theorem decode_cmd_eq_ok {bs : List Byte} {i : Instr} (h : decode .cmd bs = .ok i) :
    ∃ op seed len, i = commandInstr op seed len := by
  unfold decode at h
  split at h
  · simp only [decodeCmdWord] at h
    split at h
    · cases h; exact ⟨0b00#2, _, _, rfl⟩
    · cases h; exact ⟨0b01#2, _, _, rfl⟩
    · cases h; exact ⟨0b10#2, _, _, rfl⟩
    · cases h; exact ⟨0b11#2, _, _, rfl⟩
    · cases h
  · cases h

/-- The rows of the unit functions (R75). -/
def IsUnit : Instr → Prop
  | .wmul _ _ | .rotl _ _ | .rotr _ _ | .chi _ _ _ | .rd32 _ | .rd64 _ | .rdshort _ _ => True
  | _ => False

theorem isUnit_of_noOperand {ws : List Word} {i j : Instr} (h : noOperand ws j = .ok i)
    (hj : IsUnit j) : IsUnit i := by
  unfold noOperand at h
  split at h
  · cases h; exact hj
  · cases h

/-- A unit packet holds a unit function. -/
theorem isUnit_of_decode {bs : List Byte} {i : Instr} (h : decode .unit bs = .ok i) :
    IsUnit i := by
  unfold decode at h
  split at h
  · simp only [decodeUnitWord] at h
    split at h
    iterate 6 · exact isUnit_of_noOperand h trivial
    · split at h
      · exact isUnit_of_noOperand h trivial
      · cases h
    · cases h
    · cases h
  · cases h

/-- A unit function writes its result on the bench and nothing else. -/
theorem isUnit_next {i : Instr} {s t : State} (hi : IsUnit i) (h : exec i s = .next t) :
    ∃ u, t = s.setUnitOut u := by
  cases i with
  | wmul | rotl | rotr | chi => cases h; exact ⟨_, rfl⟩
  | rd32 | rd64 | rdshort =>
    obtain ⟨v, -, hv⟩ := onRead_next h
    cases hv
    exact ⟨_, rfl⟩
  | _ => exact hi.elim

/-! ### What a phase writes -/

theorem execIdle_of_start {s : State} {c : Command} (hr : s.request = .start c) :
    execIdle s = start c s := by
  simp [execIdle, hr]

theorem execIdle_of_no_start {s : State} (hr : ∀ c, s.request ≠ .start c) :
    execIdle s = .next (s.setPhase .idle) := by
  unfold execIdle
  split
  next c hc => exact absurd hc (hr c)
  next => rfl

/-- `t` differs from `s` only in registers that the phase may write (the table of R20). -/
def PhaseWrites (s t : State) : Phase → Prop
  | .idle => t = s.setPhase .idle
  | .short => ∃ i j y, t = { s with laneI := i, laneJ := j }.setPhase y
  | .epis64 | .epil64 => ∃ d, t = { s with digest0 := d }.complete
  | .epis128 | .epil128 => ∃ d0 d1, t = { s with digest0 := d0, digest1 := d1 }.complete
  | .init | .blk96 => ∃ l r p q y, t = { s with lanes := l, ring := r, p := p, q := q }.setPhase y
  | .rclose => ∃ l y, t = { s with lanes := l }.setPhase y
  | .blk48 | .blk24 => ∃ l p q y, t = { s with lanes := l, p := p, q := q }.setPhase y
  | .tail =>
    ∃ l i j k y, t = { s with lanes := l, laneI := i, laneJ := j, laneK := k }.setPhase y
  | .layerf => ∃ i j k y, t = { s with laneI := i, laneJ := j, laneK := k }.setPhase y

theorem execBlk48_next {s t : State} (h : execBlk48 s = .next t) : PhaseWrites s t .blk48 := by
  unfold execBlk48 at h
  split at h
  · obtain ⟨l, -, hl⟩ := onRead_next h
    cases hl
    exact ⟨_, _, _, _, rfl⟩
  · cases h
    exact ⟨s.lanes, s.p, s.q, _, rfl⟩

theorem execBlk24_next {s t : State} (h : execBlk24 s = .next t) : PhaseWrites s t .blk24 := by
  unfold execBlk24 at h
  split at h
  · obtain ⟨l, -, hl⟩ := onRead_next h
    cases hl
    exact ⟨_, _, _, _, rfl⟩
  · cases h
    exact ⟨s.lanes, s.p, s.q, _, rfl⟩

theorem execTail_next {s t : State} (h : execTail s = .next t) : PhaseWrites s t .tail := by
  obtain ⟨⟨i, j, k⟩, -, hv⟩ := onRead_next h
  dsimp only at hv
  split at hv
  · cases hv
    exact ⟨_, _, _, _, _, rfl⟩
  · cases hv
    exact ⟨s.lanes, _, _, _, _, rfl⟩

/-- Each phase, for any constants, writes only what is its own. -/
theorem phaseWrites_of_next {k : Config.Consts} {x : Phase} {s t : State}
    (hr : ∀ c, s.request ≠ .start c) (h : execWith k x.instr s = .next t) : PhaseWrites s t x := by
  cases x with
  | idle =>
    have hwait : execWith k Phase.idle.instr s = .next (s.setPhase .idle) := execIdle_of_no_start hr
    rw [hwait] at h
    cases h
    rfl
  | epis64 | epil64 => cases h; exact ⟨_, rfl⟩
  | epis128 | epil128 => cases h; exact ⟨_, _, rfl⟩
  | init => cases h; exact ⟨_, _, _, _, _, rfl⟩
  | rclose => cases h; exact ⟨_, _, rfl⟩
  | layerf => cases h; exact ⟨_, _, _, _, rfl⟩
  | short =>
    obtain ⟨v, -, hv⟩ := onRead_next h
    cases hv
    exact ⟨_, _, _, rfl⟩
  | blk96 =>
    obtain ⟨v, -, hv⟩ := onRead_next h
    cases hv
    exact ⟨_, _, _, _, _, rfl⟩
  | blk48 => exact execBlk48_next h
  | blk24 => exact execBlk24_next h
  | tail => exact execTail_next h

/-- Settles O34: a clause about a register that the case of `PhaseWrites` names has that phase among
its exceptions; every other register is that of `s`. -/
theorem phasesKeepOtherRegisters : Obligations.PhasesKeepOtherRegisters := by
  unfold Obligations.PhasesKeepOtherRegisters
  intro x s t hr h
  rw [exec_eq_execWith] at h
  have hw := phaseWrites_of_next hr h
  cases x with
  | idle => obtain rfl := hw; simp
  | short => obtain ⟨i, j, y, rfl⟩ := hw; simp
  | epis64 | epil64 => obtain ⟨d, rfl⟩ := hw; simp
  | epis128 | epil128 => obtain ⟨d0, d1, rfl⟩ := hw; simp
  | init | blk96 => obtain ⟨l, r, p, q, y, rfl⟩ := hw; simp
  | rclose => obtain ⟨l, y, rfl⟩ := hw; simp
  | blk48 | blk24 => obtain ⟨l, p, q, y, rfl⟩ := hw; simp
  | tail => obtain ⟨l, i, j, k, y, rfl⟩ := hw; simp
  | layerf => obtain ⟨i, j, k, y, rfl⟩ := hw; simp

/-- Settles O4: one rule for the step per thing it can run. -/
theorem stepRunsDecoded : Obligations.StepRunsDecoded := by
  unfold Obligations.StepRunsDecoded
  intro s
  refine ⟨step_phase s, fun c hr => ?_, fun bs i hr hd => step_call hr hd,
    fun bs i hr hp hu hd => step_bench hr hp hu hd⟩
  have hidle : exec .idle s = start c s := execIdle_of_start hr
  rw [step_start s c hr, hidle]

/-! ### The host's view -/

theorem hostView_digest0 (s : State) :
    s.hostView.digest0 = if s.dvalid then some s.digest0 else none := rfl

theorem hostView_digest1 (s : State) :
    s.hostView.digest1 = if s.dvalid && wideOf s.op then some s.digest1 else none := rfl

/-- Settles O52: the view's two words, by `DVALID` and then by `W128`. -/
theorem hostSeesDigestWhenValid : Obligations.HostSeesDigestWhenValid := by
  unfold Obligations.HostSeesDigestWhenValid
  intro s
  refine ⟨rfl, rfl, fun hd => ?_, fun hd => ⟨?_, fun hw => ?_, fun hw => ?_⟩⟩
  · simp [hostView_digest0, hostView_digest1, hd]
  · simp [hostView_digest0, hd]
  · simp [hostView_digest1, hd, hw]
  · simp [hostView_digest1, hw]

/-! ### The invariant: where no command is in progress -/

/-- Settles O8: the reset state is a literal with these values. -/
theorem resetControlValues : Obligations.ResetControlValues := ⟨rfl, rfl, rfl⟩

/-- In IDLE with `BUSY = 0` only the memory is left to ask about. -/
theorem inv_of_idle {t : State} (hm : t.msg.wf = true) (hb : t.busy = false)
    (hp : t.phase = Phase.idle.code) : Inv t :=
  ⟨hm, iff_of_true hb hp, fun h => by simp [hb] at h, .idle, hp, trivial⟩

/-- Settles O41: after reset the machine is in IDLE with no byte held. -/
theorem resetSatisfiesInv : Obligations.ResetSatisfiesInv := inv_of_idle reset_msg_wf rfl rfl

theorem inv_resetEvent {s : State} (hs : Inv s) : Inv s.resetEvent := by
  obtain ⟨hm, -⟩ := hs
  exact inv_of_idle hm rfl rfl

/-- The end of a command satisfies the invariant (R157). -/
theorem inv_of_ended {c : Command} {b t : State} (hm : b.msg.wf = true) (h : Ended c b t) :
    Inv t := by
  obtain ⟨hctx, -, hb, hp, -⟩ := h
  have hmsg : t.msg = b.msg := congrArg Context.msg hctx
  exact inv_of_idle (hmsg ▸ hm) hb hp

/-- The invariant is about the engine's registers and the memory's form only. -/
theorem inv_of_toEngine_eq {s t : State} (he : t.toEngine = s.toEngine) (hm : t.msg.wf = true)
    (hs : Inv s) : Inv t := by
  obtain ⟨e, i, b⟩ := t
  obtain rfl : e = s.toEngine := he
  obtain ⟨-, hbusy, hflags, x, hp, hx⟩ := hs
  exact ⟨hm, hbusy, hflags, x, hp, by cases x <;> exact hx⟩

theorem hostPlace_next {base : Nat} {bs : List Byte} {s t : State}
    (h : hostPlace base bs s = .next t) : t = { s with msg := s.msg.writes base bs }.retire := by
  unfold hostPlace at h
  split at h
  · cases h
  · obtain ⟨ht, -⟩ := namedPhase_next h
    cases ht
    rfl

theorem inv_of_hostPlace {base : Nat} {bs : List Byte} {s t : State} (hs : Inv s)
    (h : hostPlace base bs s = .next t) : Inv t := by
  have hm := hs.1
  rw [hostPlace_next h]
  exact inv_of_toEngine_eq (s := s) rfl (writes_wf bs s.msg base hm) hs

theorem inv_setUnitOut {s : State} (u : UnitOut) (hs : Inv s) : Inv (s.setUnitOut u) :=
  inv_of_toEngine_eq rfl hs.1 hs

/-- A command as one transaction, if it answers a next state, ends there. -/
theorem ended_of_command {op : BitVec 2} {seed len : Word} {s t : State}
    (h : exec (commandInstr op seed len) s = .next t) : Ended ⟨op, seed, len⟩ s t := by
  rw [exec_eq_execWith, execWith_commandInstr] at h
  obtain ⟨u, hu, hut⟩ := andThen_eq_next h
  have hin : InPhase ⟨op, seed, len⟩ s (startPhase len) u := (start_answers id).1 u hu
  exact (stage_path u hin).2.1 t hut

/-! ### The invariant: a command in progress -/

/-- The command `c`, started from `b`, has a phase other than IDLE to take. -/
def Running (c : Command) (b s : State) : Prop := ∃ x, x ≠ .idle ∧ InPhase c b x s

section
variable {c : Command} {b s t : State}

/-- A command in progress with its flags as START set them satisfies the invariant. -/
theorem inv_of_running (hm : b.msg.wf = true) (h : Running c b t) (hb : t.busy = true)
    (hd : t.dvalid = false) : Inv t := by
  obtain ⟨x, hx, hin⟩ := h
  have hne : t.phase ≠ Phase.idle.code := fun hp => hx (code_injective (hin.phase.symm.trans hp))
  exact ⟨hin.msg_eq ▸ hm, iff_of_false (by simp [hb]) hne, fun h => by simp [hd] at h, x,
    hin.phase, hin.inv⟩

/-- Outside IDLE the invariant gives the flags that START set (R27). -/
theorem flags_of_inv {x : Phase} (hs : Inv s) (hp : s.phase = x.code) (hx : x ≠ .idle) :
    s.busy = true ∧ s.dvalid = false := by
  obtain ⟨-, hbusy, hflags, -⟩ := hs
  have hb : s.busy = true := by
    rw [← Bool.not_eq_false, hbusy, hp]
    exact fun h => hx (code_injective h)
  exact ⟨hb, by simpa [hb] using hflags⟩

/-- A state of the invariant with nothing presented is one of the command its registers hold. -/
theorem inPhase_of_inv {x : Phase} (hs : Inv s) (hr : s.request = .none) (hp : s.phase = x.code) :
    InPhase ⟨s.op, s.seed, s.len⟩ s x s := by
  obtain ⟨-, -, -, y, hy, hinv⟩ := hs
  obtain rfl : y = x := code_injective (hy.symm.trans hp)
  exact ⟨by rw [contextOf, startedContext, hr], hp, hinv⟩

theorem startPhase_ne_idle (len : Word) : startPhase len ≠ .idle := by
  unfold startPhase; split <;> decide

theorem afterShort_ne_idle (op : BitVec 2) : afterShort op ≠ .idle := by
  unfold afterShort; split <;> decide

theorem afterLayerf_ne_idle (op : BitVec 2) : afterLayerf op ≠ .idle := by
  unfold afterLayerf; split <;> decide

theorem running_of_blocksLeft {n : Nat} (h : BlocksLeft c b n t) : Running c b t := by
  obtain ⟨hin, -⟩ := h
  refine ⟨_, ?_, hin⟩
  unfold afterBlocks
  split_ifs <;> decide

/-- The four phases that complete a command (R157). -/
def IsLast (x : Phase) : Prop := x = .epis64 ∨ x = .epis128 ∨ x = .epil64 ∨ x = .epil128

/-- A last phase ends the command. -/
theorem ended_of_last {x : Phase} (h : InPhase c b x s) (hx : IsLast x)
    (ht : exec x.instr s = .next t) : Ended c b t := by
  obtain rfl | rfl | rfl | rfl := hx
  all_goals
    cases ht
    exact ended_complete h.context

/-- Any other phase leads to a phase that finds the registers as it needs them (R152, R126). -/
theorem running_of_not_last {x : Phase} (h : InPhase c b x s) (hidle : x ≠ .idle)
    (hlast : ¬ IsLast x) (ht : exec x.instr s = .next t) : Running c b t := by
  cases x with
  | idle => exact absurd rfl hidle
  | epis64 | epis128 | epil64 | epil128 => exact absurd (by simp [IsLast]) hlast
  | short => exact ⟨_, afterShort_ne_idle _, (shortWith_answers h).1 t ht⟩
  | init => exact running_of_blocksLeft ((initWith_answers h).1 t ht)
  | blk96 =>
    obtain ⟨hq, -, -⟩ := h.inv
    have hblocks : BlocksLeft c b (s.q.toNat / 96 - 1 + 1) s := by
      refine ⟨?_, by omega⟩
      rw [if_neg (by omega)]
      exact h
    exact running_of_blocksLeft ((execBlk96_answers hblocks).1 t ht)
  | rclose => exact ⟨.blk48, by decide, (execRclose_answers h).1 t ht⟩
  | blk48 => exact ⟨.blk24, by decide, (execBlk48_answers h).1 t ht⟩
  | blk24 => exact ⟨.tail, by decide, (execBlk24_answers h).1 t ht⟩
  | tail => exact ⟨.layerf, by decide, (execTail_answers h).1 t ht⟩
  | layerf => exact ⟨_, afterLayerf_ne_idle _, (layerfWith_answers h).1 t ht⟩

/-- A phase that is not a last one leaves the flags alone (R27). -/
theorem flags_of_not_last {x : Phase} (hr : s.request = .none) (hlast : ¬ IsLast x)
    (ht : exec x.instr s = .next t) : t.busy = s.busy ∧ t.dvalid = s.dvalid := by
  obtain ⟨-, -, -, -, -, -, -, hkeep, -⟩ :=
    phasesKeepOtherRegisters x s t (fun c hc => by simp [hr] at hc) ht
  simp only [IsLast, not_or] at hlast
  obtain ⟨h1, h2, h3, h4⟩ := hlast
  exact (hkeep h1 h2 h3 h4).2

/-- The sequencer keeps the invariant phase by phase. -/
theorem inv_of_phase {x : Phase} (hs : Inv s) (hr : s.request = .none) (hp : s.phase = x.code)
    (ht : exec x.instr s = .next t) : Inv t := by
  have ⟨hm, hbusy, _⟩ := hs
  have hin := inPhase_of_inv hs hr hp
  by_cases hidle : x = .idle
  · subst hidle
    have hwait : exec Phase.idle.instr s = .next (s.setPhase .idle) :=
      execIdle_of_no_start fun c hc => by simp [hr] at hc
    rw [hwait] at ht
    cases ht
    exact inv_of_idle hm (hbusy.2 hp) rfl
  by_cases hlast : IsLast x
  · exact inv_of_ended hm (ended_of_last hin hlast ht)
  · obtain ⟨hb, hd⟩ := flags_of_inv hs hp hidle
    obtain ⟨hb', hd'⟩ := flags_of_not_last hr hlast ht
    exact inv_of_running hm (running_of_not_last hin hidle hlast ht) (hb'.trans hb) (hd'.trans hd)

/-- An accepted START opens a command with its flags set (R150). -/
theorem inv_of_start (hs : Inv s) (ht : start c s = .next t) : Inv t := by
  have hin : InPhase c s (startPhase c.len) t := (start_answers id).1 t ht
  rw [start_of_ready c s (start_next ht)] at ht
  cases ht
  exact inv_of_running hs.1 ⟨_, startPhase_ne_idle _, hin⟩ rfl rfl

end

/-- Settles O42: each thing a step can be keeps the invariant. -/
theorem stepKeepsInv : Obligations.StepKeepsInv := by
  unfold Obligations.StepKeepsInv
  intro s t hs h
  have hm := hs.1
  cases step_next h with
  | reset ht => exact ht ▸ inv_resetEvent hs
  | place ht => exact inv_of_hostPlace hs ht
  | start ht => exact inv_of_start hs ht
  | call hd ht =>
    obtain ⟨op, seed, len, rfl⟩ := decode_cmd_eq_ok hd
    exact inv_of_ended hm (ended_of_command ht)
  | phase hr hp ht => exact inv_of_phase hs hr hp ht
  | bench hd ht =>
    obtain ⟨u, rfl⟩ := isUnit_next (isUnit_of_decode hd) ht
    exact inv_setUnitOut u hs

end Sys2Proof.Registers

/-! SUPPORT and PROOFS for the statements of spec/20_memory.md: no instruction writes the message, a
sequence of reads faults at its first read that misses a byte, and a command of no bytes reads none. -/

namespace Sys2Proof.Memory

open Sys2Proof.Machine Sys2Proof.Laws Sys2Proof.Grains Sys2Proof.Registers

/-! ### No instruction writes the message -/

/-- A command ends with the message it began with. -/
theorem msg_of_command {op : BitVec 2} {seed len : Word} {s t : State}
    (h : exec (commandInstr op seed len) s = .next t) : t.msg = s.msg :=
  congrArg Context.msg (ended_of_command h).context

/-- A unit function writes the bench only. -/
theorem msg_of_isUnit {i : Instr} {s t : State} (h : exec i s = .next t) (hi : IsUnit i) :
    t.msg = s.msg := by
  obtain ⟨u, rfl⟩ := isUnit_next hi h
  rfl

/-- IDLE leaves the message alone, whether it takes START or waits. -/
theorem msg_of_idle {s t : State} (h : execIdle s = .next t) : t.msg = s.msg := by
  by_cases hstart : ∃ c, s.request = .start c
  · obtain ⟨c, hr⟩ := hstart
    rw [execIdle_of_start hr] at h
    have hin : InPhase c s (startPhase c.len) t := (start_answers id).1 t h
    exact hin.msg_eq
  · rw [execIdle_of_no_start fun c hr => hstart ⟨c, hr⟩] at h
    cases h
    rfl

/-- Settles O33: a command by what it ends in, a unit function by the bench, a phase by the registers
it writes. -/
theorem engineNeverWritesMessage : Obligations.EngineNeverWritesMessage := by
  unfold Obligations.EngineNeverWritesMessage
  intro i s t h x
  suffices hmsg : t.msg = s.msg by rw [hmsg]
  cases i with
  | hash64 => exact msg_of_command (op := 0b00#2) h
  | hash64f => exact msg_of_command (op := 0b01#2) h
  | hash128 => exact msg_of_command (op := 0b10#2) h
  | hash128f => exact msg_of_command (op := 0b11#2) h
  | wmul | rotl | rotr | chi | rd32 | rd64 | rdshort => exact msg_of_isUnit h trivial
  | idle => exact msg_of_idle h
  | epis64 | epis128 | init | rclose | layerf | epil64 | epil128 => cases h; rfl
  | short | blk96 =>
    obtain ⟨v, -, hv⟩ := onRead_next h
    cases hv
    rfl
  | blk48 => obtain ⟨l, p, q, y, rfl⟩ := execBlk48_next h; rfl
  | blk24 => obtain ⟨l, p, q, y, rfl⟩ := execBlk24_next h; rfl
  | tail => obtain ⟨l, i, j, k, y, rfl⟩ := execTail_next h; rfl

/-! ### Reads in order -/

/-- The memory holds every byte of a list of reads, each given by offset and width. -/
def HoldsReads (m : Mem) (rs : List (Nat × Nat)) : Prop := ∀ r ∈ rs, Holds m r.1 (r.1 + r.2)

/-- A list of reads is held, or it faults somewhere. -/
theorem holdsReads_or_faultsAt (m : Mem) (rs : List (Nat × Nat)) :
    HoldsReads m rs ∨ ∃ a, FaultsAt m rs a := by
  induction rs with
  | nil => exact .inl nofun
  | cons r rs ih =>
    obtain ⟨x, w⟩ := r
    obtain hx | ⟨a, ha⟩ := holds_or_missing m x w
    · obtain hrs | ⟨a, ha⟩ := ih
      · exact .inl (List.forall_mem_cons.2 ⟨hx, hrs⟩)
      · exact .inr ⟨a, .inr ⟨hx, ha⟩⟩
    · exact .inr ⟨a, .inl ha⟩

/-- The fault of a list of reads is the lowest missing offset of one of them. -/
theorem faultsAt_firstMissing {m : Mem} {rs : List (Nat × Nat)} {a : Nat} (h : FaultsAt m rs a) :
    ∃ r ∈ rs, FirstMissing m r.1 (r.1 + r.2) a := by
  induction rs with
  | nil => exact h.elim
  | cons r rs ih =>
    obtain hr | ⟨-, hrs⟩ := h
    · exact ⟨r, List.mem_cons_self, hr⟩
    · obtain ⟨r', hr', hmiss⟩ := ih hrs
      exact ⟨r', List.mem_cons_of_mem r hr', hmiss⟩

/-- Two lists of reads one after the other fault in the first, or in the second with the first held. -/
theorem faultsAt_append {m : Mem} {rs rs' : List (Nat × Nat)} {a : Nat}
    (h : FaultsAt m (rs ++ rs') a) : FaultsAt m rs a ∨ (HoldsReads m rs ∧ FaultsAt m rs' a) := by
  induction rs with
  | nil => exact .inr ⟨nofun, h⟩
  | cons r rs ih =>
    obtain hr | ⟨hheld, hrs⟩ := h
    · exact .inl (.inl hr)
    · obtain hrs | ⟨hheld', hrs'⟩ := ih hrs
      · exact .inl (.inr ⟨hheld, hrs⟩)
      · exact .inr ⟨List.forall_mem_cons.2 ⟨hheld, hheld'⟩, hrs'⟩

/-- The reads of a list lie end to end from `lo` to `hi`. -/
def Tiles (lo hi : Nat) : List (Nat × Nat) → Prop
  | [] => lo = hi
  | (x, w) :: rs => x = lo ∧ Tiles (lo + w) hi rs

/-- Reads that lie end to end fault where one read of the whole range does (R64). -/
theorem faultsAt_of_tiles {m : Mem} {rs : List (Nat × Nat)} {lo hi a : Nat} (ht : Tiles lo hi rs)
    (h : FirstMissing m lo hi a) : FaultsAt m rs a := by
  induction rs generalizing lo with
  | nil =>
    obtain ⟨hlo, hhi, -⟩ := h
    exact absurd hhi (by simp only [Tiles] at ht; omega)
  | cons r rs ih =>
    obtain ⟨x, w⟩ := r
    obtain ⟨rfl, ht⟩ := ht
    obtain ⟨hlo, hhi, hmiss, hheld⟩ := h
    by_cases hxw : a < x + w
    · exact .inl ⟨hlo, hxw, hmiss, hheld⟩
    · refine .inr ⟨fun y h1 h2 => hheld y h1 (by omega), ih ht ⟨by omega, hhi, hmiss, ?_⟩⟩
      exact fun y h1 h2 => hheld y (by omega) h2

/-- `r` does the reads of a list in this order: it succeeds where all are held, and else faults at the
lowest missing offset of the first that misses one (R64, R173). -/
structure ReadsInOrder {α : Type} (m : Mem) (rs : List (Nat × Nat)) (r : Except Fault α) : Prop where
  succeeds : HoldsReads m rs → ∃ v, r = .ok v
  faults : ∀ a, FaultsAt m rs a → r = .error (.msgFault a)

section
variable {α β : Type} {m : Mem} {rs rs' : List (Nat × Nat)}

theorem readsInOrder_pure (v : α) : ReadsInOrder m [] (pure v) :=
  ⟨fun _ => ⟨v, rfl⟩, fun _ h => h.elim⟩

theorem readsInOrder_rd64 (a : Nat) : ReadsInOrder m [(a, 8)] (rd64 m a) where
  succeeds h := ⟨_, rd64_of_holds m a (h (a, 8) List.mem_cons_self)⟩
  faults x h := by
    obtain h | ⟨-, h⟩ := h
    · simp [rd64, memRead_of_missing m a 8 x h]
    · exact h.elim

theorem ReadsInOrder.bind {r : Except Fault α} {f : α → Except Fault β} (hr : ReadsInOrder m rs r)
    (hf : ∀ v, ReadsInOrder m rs' (f v)) : ReadsInOrder m (rs ++ rs') (r >>= f) where
  succeeds h := by
    obtain ⟨h1, h2⟩ := List.forall_mem_append.1 h
    obtain ⟨v, rfl⟩ := hr.succeeds h1
    exact (hf v).succeeds h2
  faults a h := by
    obtain h1 | ⟨h1, h2⟩ := faultsAt_append h
    · rw [hr.faults a h1, bind_error]
    · obtain ⟨v, rfl⟩ := hr.succeeds h1
      exact (hf v).faults a h2

/-- A fold does the reads of its steps, one step after the other. -/
theorem readsInOrder_foldlM {f : β → α → Except Fault β} {reads : α → List (Nat × Nat)}
    (hf : ∀ acc x, ReadsInOrder m (reads x) (f acc x)) (l : List α) (acc : β) :
    ReadsInOrder m (l.flatMap reads) (l.foldlM f acc) := by
  induction l generalizing acc with
  | nil => exact readsInOrder_pure acc
  | cons x l ih => exact (hf acc x).bind ih

/-- What reads in order reports is a fault of its list. -/
theorem ReadsInOrder.faultsAt_of_error {r : Except Fault α} {e : Fault} (hr : ReadsInOrder m rs r)
    (h : r = .error e) : ∃ a, e = .msgFault a ∧ FaultsAt m rs a := by
  obtain hheld | ⟨a, ha⟩ := holdsReads_or_faultsAt m rs
  · obtain ⟨v, hv⟩ := hr.succeeds hheld
    exact absurd (hv.symm.trans h) nofun
  · rw [hr.faults a ha] at h
    cases h
    exact ⟨a, rfl, ha⟩

end

/-! ### The reads of the block phases -/

section
variable {α : Type} {m : Mem} {p n : Nat}

/-- Reads that lie end to end are one read of the whole block (R64). -/
theorem ReadsInOrder.of_tiles {rs : List (Nat × Nat)} {r : Except Fault α}
    (hok : Holds m p (p + n) → ∃ v, r = .ok v) (hr : ReadsInOrder m rs r)
    (ht : Tiles p (p + n) rs) : ReadsInOrder m [(p, n)] r where
  succeeds h := hok (h (p, n) List.mem_cons_self)
  faults a h := by
    obtain h | ⟨-, h⟩ := h
    · exact hr.faults a (faultsAt_of_tiles ht h)
    · exact h.elim

/-- The two words of a step of BLK96 and BLK48 (R121, R123). -/
def pairReads (p : Nat) (x : Nat × Lane × Lane) : List (Nat × Nat) :=
  [(p + 16 * x.1, 8), (p + 16 * x.1 + 8, 8)]

theorem blk96Step_reads (fast : Bool) (acc : Lanes × Word) (x : Nat × Lane × Lane) :
    ReadsInOrder m (pairReads p x) (blk96Step fast m p acc x) :=
  (readsInOrder_rd64 _).bind fun _ => (readsInOrder_rd64 _).bind fun _ => readsInOrder_pure _

theorem blk48Step_reads (fast : Bool) (l : Lanes) (x : Nat × Lane × Lane) :
    ReadsInOrder m (pairReads p x) (blk48Step fast m p l x) :=
  (readsInOrder_rd64 _).bind fun _ => (readsInOrder_rd64 _).bind fun _ => readsInOrder_pure _

theorem blk24Step_reads (fast : Bool) (l : Lanes) (x : Nat × Lane × Lane) :
    ReadsInOrder m [(p + 8 * x.1, 8)] (blk24Step fast m p l x) :=
  (readsInOrder_rd64 _).bind fun _ => readsInOrder_pure _

theorem blk96Mix_reads (fast : Bool) (l : Lanes) (ring : Word) :
    ReadsInOrder m [(p, 96)] (blk96Mix fast m p l ring) :=
  .of_tiles (blk96Mix_ok fast l ring) (readsInOrder_foldlM (blk96Step_reads fast) _ _)
    (by simp [ringPairs, pairReads, Tiles])

theorem blk48Mix_reads (fast : Bool) (l : Lanes) :
    ReadsInOrder m [(p, 48)] (blk48Mix fast m p l) :=
  .of_tiles (blk48Mix_ok fast l) (readsInOrder_foldlM (blk48Step_reads fast) _ _)
    (by simp [pairReads, Tiles])

theorem blk24Mix_reads (fast : Bool) (l : Lanes) :
    ReadsInOrder m [(p, 24)] (blk24Mix fast m p l) :=
  .of_tiles (blk24Mix_ok fast l) (readsInOrder_foldlM (blk24Step_reads fast) _ _)
    (by simp [Tiles])

/-- A phase that reads one block faults at the lowest offset the block misses. -/
theorem onRead_of_firstMissing {r : Except Fault α} {a : Nat} (f : α → Result)
    (hr : ReadsInOrder m [(p, n)] r) (h : FirstMissing m p (p + n) a) :
    onRead r f = .fault (.msgFault a) := by
  rw [hr.faults a (.inl h), onRead_error]

end

/-- Settles O38: the reads of each block phase lie end to end, so they fault as one read of the
block. -/
theorem blockReadsFaultAtLowest : Obligations.BlockReadsFaultAtLowest := by
  unfold Obligations.BlockReadsFaultAtLowest
  intro s a
  refine ⟨fun h => ?_, fun hq h => ?_, fun hq h => ?_⟩
  · exact onRead_of_firstMissing _ (blk96Mix_reads _ _ _) h
  · have hexec : exec .blk48 s = onRead _ _ := if_pos hq
    rw [hexec]
    exact onRead_of_firstMissing _ (blk48Mix_reads _ _) h
  · have hexec : exec .blk24 s = onRead _ _ := if_pos hq
    rw [hexec]
    exact onRead_of_firstMissing _ (blk24Mix_reads _ _) h

/-! ### The reads of SHORT and TAIL -/

section
variable {m : Mem} {p q : Nat}

/-- With at most 16 bytes left TAIL reads as RDSHORT does (R125). -/
theorem tailRead_of_le (h : q ≤ 16) :
    tailRead m p q = rdshort m p q >>= fun v => pure (v.1, v.2, 0) := if_pos h

/-- With more it reads three words (R125). -/
theorem tailRead_of_gt (h : 16 < q) :
    ReadsInOrder m [(p, 8), (p + 8, 8), (p + q - 8, 8)] (tailRead m p q) := by
  rw [tailRead, if_neg (Nat.not_le.2 h)]
  exact (readsInOrder_rd64 _).bind fun _ => (readsInOrder_rd64 _).bind fun _ =>
    (readsInOrder_rd64 _).bind fun _ => readsInOrder_pure _

theorem tailRead_of_faultsAt {a : Nat} (h : FaultsAt m (tailReads p q) a) :
    tailRead m p q = .error (.msgFault a) := by
  unfold tailReads at h
  split at h
  next hq => rw [tailRead_of_le hq, rdshort_of_faultsAt m p q a h, bind_error]
  next hq => exact (tailRead_of_gt (Nat.lt_of_not_le hq)).faults a h

end

/-- Settles O51: the phase faults with what its reader reports. -/
theorem shortReadsFaultAtFirst : Obligations.ShortReadsFaultAtFirst := by
  unfold Obligations.ShortReadsFaultAtFirst
  intro s a
  refine ⟨fun _ h => ?_, fun _ h => ?_⟩
  · rw [exec, execShort, shortWith, rdshort_of_faultsAt s.msg 0 _ a h, onRead_error]
  · rw [exec, execTail, tailRead_of_faultsAt h, onRead_error]

/-! ### Where a fault can be -/

/-- `r` faults, if it does, at an offset of `lo .. hi-1` that the memory does not hold. -/
def FaultsWithin {α : Type} (m : Mem) (lo hi : Nat) (r : Except Fault α) : Prop :=
  ∀ e, r = .error e → ∃ a, e = .msgFault a ∧ lo ≤ a ∧ a < hi ∧ m.has a = false

section
variable {α : Type} {m : Mem} {p q lo hi : Nat}

theorem ReadsInOrder.faultsWithin {rs : List (Nat × Nat)} {r : Except Fault α}
    (hr : ReadsInOrder m rs r) (hrs : ∀ x ∈ rs, lo ≤ x.1 ∧ x.1 + x.2 ≤ hi) :
    FaultsWithin m lo hi r := by
  intro e he
  obtain ⟨a, rfl, ha⟩ := hr.faultsAt_of_error he
  obtain ⟨x, hx, h1, h2, hmiss, -⟩ := faultsAt_firstMissing ha
  obtain ⟨hlo, hhi⟩ := hrs x hx
  exact ⟨a, rfl, by omega, by omega, hmiss⟩

/-- One read faults inside its range. -/
theorem ReadsInOrder.faultsWithin_of_one {n : Nat} {r : Except Fault α}
    (hr : ReadsInOrder m [(p, n)] r) : FaultsWithin m p (p + n) r :=
  hr.faultsWithin (by simp)

/-- The tail's faults are at its own `q` bytes (R57). -/
theorem tailRead_faultsWithin : FaultsWithin m p (p + q) (tailRead m p q) := by
  by_cases hq : q ≤ 16
  · intro e he
    rw [tailRead_of_le hq] at he
    obtain he | ⟨v, -, he⟩ := bind_eq_error he
    · exact rdshort_error m p q e he
    · cases he
  · refine (tailRead_of_gt (Nat.lt_of_not_le hq)).faultsWithin ?_
    simp only [List.forall_mem_cons, List.not_mem_nil, false_implies, implies_true, and_true]
    omega

/-- A phase that goes on with what it reads faults only where the read does. -/
theorem onRead_fault {r : Except Fault α} {f : α → Result} {a : Nat} (hr : FaultsWithin m lo hi r)
    (hf : ∀ v e, f v ≠ .fault e) (h : onRead r f = .fault (.msgFault a)) :
    a < hi ∧ m.has a = false := by
  cases r with
  | ok v => exact absurd h (hf v _)
  | error e =>
    obtain ⟨x, rfl, -, hx, hmiss⟩ := hr e rfl
    cases h
    exact ⟨hx, hmiss⟩

end

/-- The five phases that read (R57). -/
def IsReading (x : Phase) : Prop :=
  x = .short ∨ x = .blk96 ∨ x = .blk48 ∨ x = .blk24 ∨ x = .tail

section
variable {c : Command} {b s : State}

theorem execBlk48_fault {a : Nat} (h : execBlk48 s = .fault (.msgFault a)) :
    48 ≤ s.q.toNat ∧ a < s.p.toNat + 48 ∧ s.msg.has a = false := by
  unfold execBlk48 at h
  split at h
  next hq =>
    exact ⟨hq, onRead_fault (blk48Mix_reads _ _).faultsWithin_of_one (fun _ _ h => by cases h) h⟩
  next => cases h

theorem execBlk24_fault {a : Nat} (h : execBlk24 s = .fault (.msgFault a)) :
    24 ≤ s.q.toNat ∧ a < s.p.toNat + 24 ∧ s.msg.has a = false := by
  unfold execBlk24 at h
  split at h
  next hq =>
    exact ⟨hq, onRead_fault (blk24Mix_reads _ _).faultsWithin_of_one (fun _ _ h => by cases h) h⟩
  next => cases h

theorem execTail_fault {a : Nat} (h : execTail s = .fault (.msgFault a)) :
    a < s.p.toNat + s.q.toNat ∧ s.msg.has a = false := by
  refine onRead_fault tailRead_faultsWithin (fun v e he => ?_) h
  dsimp only at he
  split at he
  · cases he
  · cases he

/-- A phase that finds the registers as the invariant has them reads below `LEN` (R57). -/
theorem fault_of_phase {x : Phase} {a : Nat} (h : InPhase c b x s)
    (hf : exec x.instr s = .fault (.msgFault a)) :
    a < s.len.toNat ∧ s.msg.has a = false ∧ IsReading x := by
  have hinv := h.inv
  cases x with
  | idle =>
    have hwait : exec Phase.idle.instr s = .next (s.setPhase .idle) :=
      execIdle_of_no_start fun c hc => by simp [h.request_eq] at hc
    rw [hwait] at hf
    cases hf
  | epis64 | epis128 | init | rclose | layerf | epil64 | epil128 => cases hf
  | short =>
    obtain ⟨ha, hmiss⟩ :=
      onRead_fault (rdshort_error s.msg 0 s.len.toNat) (fun _ _ h => by cases h) hf
    exact ⟨by omega, hmiss, by simp [IsReading]⟩
  | blk96 =>
    obtain ⟨hq, -, hpq⟩ := hinv
    obtain ⟨ha, hmiss⟩ :=
      onRead_fault (blk96Mix_reads _ _ _).faultsWithin_of_one (fun _ _ h => by cases h) hf
    exact ⟨by omega, hmiss, by simp [IsReading]⟩
  | blk48 =>
    obtain ⟨-, -, hpq⟩ := hinv
    obtain ⟨hq, ha, hmiss⟩ := execBlk48_fault hf
    exact ⟨by omega, hmiss, by simp [IsReading]⟩
  | blk24 =>
    obtain ⟨-, -, hpq⟩ := hinv
    obtain ⟨hq, ha, hmiss⟩ := execBlk24_fault hf
    exact ⟨by omega, hmiss, by simp [IsReading]⟩
  | tail =>
    obtain ⟨-, -, hpq⟩ := hinv
    obtain ⟨ha, hmiss⟩ := execTail_fault hf
    exact ⟨by omega, hmiss, by simp [IsReading]⟩

/-- With the message held every phase goes on (R57, R158). -/
theorem continues_of_phase {x : Phase} (h : InPhase c b x s) (hheld : Held c b) :
    ∃ t, exec x.instr s = .next t := by
  cases x with
  | idle => exact ⟨_, execIdle_of_no_start fun c hc => by simp [h.request_eq] at hc⟩
  | epis64 | epis128 | init | rclose | layerf | epil64 | epil128 => exact ⟨_, rfl⟩
  | short => exact (shortWith_answers h).2 hheld
  | blk96 =>
    obtain ⟨hq, -, -⟩ := h.inv
    have hblocks : BlocksLeft c b (s.q.toNat / 96 - 1 + 1) s :=
      ⟨by rw [if_neg (by omega)]; exact h, by omega⟩
    exact (execBlk96_answers hblocks).2 hheld
  | blk48 => exact (execBlk48_answers h).2 hheld
  | blk24 => exact (execBlk24_answers h).2 hheld
  | tail => exact (execTail_answers h).2 hheld

/-- In a state of the invariant a quiet host leaves the step to the phase, which finds the registers as
it needs them. -/
theorem step_of_inv (hs : Inv s) (hq : Quiet s) :
    ∃ x : Phase, step s = exec x.instr s ∧ InPhase ⟨s.op, s.seed, s.len⟩ s x s := by
  obtain ⟨hr, hu⟩ := hq
  have ⟨_, _, _, x, hp, _⟩ := hs
  exact ⟨x, step_phase s x hr hp fun _ => hu, inPhase_of_inv hs hr hp⟩

end

/-- Settles O39: the step is a phase, whose reads the invariant keeps below `LEN`. -/
theorem faultIsMissingMessageByte : Obligations.FaultIsMissingMessageByte := by
  unfold Obligations.FaultIsMissingMessageByte
  intro s a hs hq hf
  obtain ⟨x, hstep, hin⟩ := step_of_inv hs hq
  obtain ⟨ha, hmiss, hx⟩ := fault_of_phase hin (hstep ▸ hf)
  refine ⟨ha, hmiss, ?_⟩
  rw [hin.phase]
  obtain rfl | rfl | rfl | rfl | rfl := hx <;> decide

/-- Settles O40: the step is a phase, and the message it reads is held. -/
theorem heldMessageNeverStops : Obligations.HeldMessageNeverStops := by
  unfold Obligations.HeldMessageNeverStops
  intro s hs hq hheld
  obtain ⟨x, hstep, hin⟩ := step_of_inv hs hq
  rw [hstep]
  exact continues_of_phase hin hheld

/-! ### The empty message -/

/-- SHORT on no bytes reads nothing: the lanes are the halves of its one multiply and the seed
(R57, R110). -/
theorem shortWith_empty (k : Config.Consts) {s : State} (hlen : s.len = 0) :
    shortWith k s = .next ({ s with
      laneI := (wmul (s.seed ^^^ k.c0) k.c1).1
      laneJ := (wmul (s.seed ^^^ k.c0) k.c1).2 ^^^ s.seed }.setPhase (afterShort s.op)) := by
  have hread : rdshort s.msg 0 s.len.toNat = .ok (0, 0) := by rw [hlen]; rfl
  rw [shortWith, hread, onRead_ok]
  simp [shortMix, hlen]

/-- A command of no bytes is the epilogue that `W128` selects, on the lanes of SHORT (R153). -/
theorem exec_command_empty {s : State} (hs : Ready s) (op : BitVec 2) (seed : Word) :
    ∃ u, exec (commandInstr op seed 0) s = exec (afterShort op).instr u ∧ u.op = op ∧
      u.laneI = (wmul (seed ^^^ Config.consts.c0) Config.consts.c1).1 ∧
      u.laneJ = (wmul (seed ^^^ Config.consts.c0) Config.consts.c1).2 ^^^ seed := by
  have hlen : (0 : Word).toNat ≤ 16 := by decide
  simp only [exec_eq_execWith]
  rw [execWith_commandInstr, transaction, start_of_ready _ s hs, andThen_next, if_pos hlen,
    shortPath, shortWith_empty _ rfl, andThen_next]
  exact ⟨_, rfl, rfl, rfl, rfl⟩

section
variable {s : State} (hs : Ready s) (seed : Word)
include hs

/-- The 64-bit digest of no bytes is that of the seed's lanes, in either mode (R111). -/
theorem digest64_empty {op : BitVec 2} (hop : wideOf op = false) :
    ∃ t, exec (commandInstr op seed 0) s = .next t ∧ t.dvalid = true ∧
      t.digest0 = epis64Mix Config.consts (wmul (seed ^^^ Config.consts.c0) Config.consts.c1).1
        ((wmul (seed ^^^ Config.consts.c0) Config.consts.c1).2 ^^^ seed) := by
  obtain ⟨u, hexec, -, hi, hj⟩ := exec_command_empty hs op seed
  have hnext : afterShort op = .epis64 := by simp [afterShort, hop]
  rw [hexec, hnext, ← hi, ← hj]
  exact ⟨_, rfl, rfl, rfl⟩

/-- The 128-bit digest of no bytes is that of the seed's lanes, by the mode (R112). -/
theorem digest128_empty {op : BitVec 2} (hop : wideOf op = true) :
    ∃ t, exec (commandInstr op seed 0) s = .next t ∧ t.dvalid = true ∧
      (t.digest0, t.digest1) =
        epis128Mix Config.consts (fastOf op)
          (wmul (seed ^^^ Config.consts.c0) Config.consts.c1).1
          ((wmul (seed ^^^ Config.consts.c0) Config.consts.c1).2 ^^^ seed) := by
  obtain ⟨u, hexec, hu, hi, hj⟩ := exec_command_empty hs op seed
  have hnext : afterShort op = .epis128 := by simp [afterShort, hop]
  rw [hexec, hnext, ← hi, ← hj, ← hu]
  exact ⟨_, rfl, rfl, rfl⟩

end

/-- Settles O48: with its multiplies given names, the statement's digest is by definition that of the
epilogue `W128` selects on the lanes of the seed. -/
theorem emptyMessageDigest : Obligations.EmptyMessageDigest := by
  unfold Obligations.EmptyMessageDigest
  intro s seed hs
  obtain ⟨t, ht, hvalid, hdigest⟩ := digest128_empty hs seed (op := 0b10#2) rfl
  obtain ⟨t', ht', hvalid', hdigest'⟩ := digest128_empty hs seed (op := 0b11#2) rfl
  exact ⟨digest64_empty hs seed (op := 0b00#2) rfl, digest64_empty hs seed (op := 0b01#2) rfl,
    ⟨t, ht, hvalid, congrArg Prod.fst hdigest, congrArg Prod.snd hdigest⟩,
    ⟨t', ht', hvalid', congrArg Prod.fst hdigest', congrArg Prod.snd hdigest'⟩⟩

end Sys2Proof.Memory

/-! SUPPORT and PROOFS for the statements of spec/30_encoding.md: encoder and decoder word by word, what
a step takes from a stored word, the bytes of a digest. -/

namespace Sys2Proof.Encoding

open Sys2Proof.Machine Sys2Proof.Laws Sys2Proof.Grains Sys2Proof.Registers

/-! ### Packets and the numbers they hold -/

/-- The decoder on the number that a packet's bytes stand for. -/
def decodeWord : Format → Nat → Except Reject Instr
  | .cmd => decodeCmdWord
  | .phase => decodePhaseWord
  | .unit => decodeUnitWord

/-- Bytes of the right length are decoded by the number they stand for. -/
theorem decode_of_length {f : Format} {bs : List Byte} (h : bs.length = f.size) :
    decode f bs = decodeWord f (leNat bs) := by
  unfold decode
  rw [if_pos h]
  cases f <;> rfl

/-- The packet of a number that fits is decoded by that number. -/
theorem decode_packet {f : Format} {w : Nat} (hw : w < 256 ^ f.size) :
    decode (packet f w).format (packet f w).bytes = decodeWord f w := by
  rw [packet, decode_of_length (leBytes_length _ _), leNat_leBytes _ _ hw]

/-- Bytes that are accepted are the packet of the number they stand for. -/
theorem decode_eq_ok {f : Format} {bs : List Byte} {i : Instr} (h : decode f bs = .ok i) :
    leNat bs < 256 ^ f.size ∧ packet f (leNat bs) = ⟨f, bs⟩ ∧ decodeWord f (leNat bs) = .ok i := by
  have hlen : bs.length = f.size := by
    by_contra hne
    unfold decode at h
    rw [if_neg hne] at h
    cases h
  rw [decode_of_length hlen] at h
  rw [packet, ← hlen, leBytes_leNat]
  exact ⟨leNat_lt bs, rfl, h⟩

/-! ### Command words -/

theorem op_cases (op : BitVec 2) : op = 0b00#2 ∨ op = 0b01#2 ∨ op = 0b10#2 ∨ op = 0b11#2 := by
  revert op; decide

theorem encode_commandInstr (op : BitVec 2) (seed len : Word) :
    encode (commandInstr op seed len) = packet .cmd (cmdWord op.toNat seed len) := by
  obtain rfl | rfl | rfl | rfl := op_cases op <;> rfl

theorem cmdWord_lt (op : BitVec 2) (seed len : Word) :
    cmdWord op.toNat seed len < 256 ^ Format.cmd.size := by
  have hop := op.isLt
  have hseed := seed.isLt
  have hlen := len.isLt
  simp only [cmdWord, Format.size]
  omega

/-- The three fields of a command word read back (R70). -/
theorem decodeCmdWord_cmdWord (op : BitVec 2) (seed len : Word) :
    decodeCmdWord (cmdWord op.toNat seed len) = .ok (commandInstr op seed len) := by
  have hseed := seed.isLt
  have hlen := len.isLt
  have hlenField : BitVec.ofNat 64 (cmdWord op.toNat seed len) = len :=
    BitVec.eq_of_toNat_eq (by simp only [cmdWord, BitVec.toNat_ofNat]; omega)
  have hseedField : BitVec.ofNat 64 (cmdWord op.toNat seed len / 2 ^ 64) = seed :=
    BitVec.eq_of_toNat_eq (by simp only [cmdWord, BitVec.toNat_ofNat]; omega)
  have hopField : cmdWord op.toNat seed len / 2 ^ 128 = op.toNat := by
    simp only [cmdWord]; omega
  simp only [decodeCmdWord, hlenField, hseedField, hopField]
  obtain rfl | rfl | rfl | rfl := op_cases op <;> rfl

/-- A number is the command word of its code and its two fields (R70). -/
theorem eq_cmdWord (w : Nat) :
    w = cmdWord (w / 2 ^ 128) (BitVec.ofNat 64 (w / 2 ^ 64)) (BitVec.ofNat 64 w) := by
  simp only [cmdWord, BitVec.toNat_ofNat]
  omega

/-- A number accepted as a command is the word of that command. -/
theorem encode_of_decodeCmdWord {w : Nat} {i : Instr} (h : decodeCmdWord w = .ok i) :
    i.wf = true ∧ encode i = packet .cmd w := by
  have hw := eq_cmdWord w
  simp only [decodeCmdWord] at h
  split at h
  case h_5 => cases h
  all_goals
    next hop =>
      cases h
      rw [hop] at hw
      exact ⟨rfl, congrArg (packet .cmd) hw.symm⟩

/-! ### Phase codes -/

theorem encode_phase (x : Phase) : encode x.instr = packet .phase x.code.toNat := by
  cases x <;> rfl

theorem phase_wf (x : Phase) : x.instr.wf = true := by cases x <;> rfl

theorem decodePhaseWord_code (x : Phase) : decodePhaseWord x.code.toNat = .ok x.instr := by
  have hcode : x.code.toNat < 16 := x.code.isLt
  simp [decodePhaseWord, hcode]

/-- A number accepted as a phase code is the code of that phase (R74). -/
theorem decodePhaseWord_eq_ok {w : Nat} {i : Instr} (h : decodePhaseWord w = .ok i) :
    ∃ x : Phase, w = x.code.toNat ∧ i = x.instr := by
  unfold decodePhaseWord at h
  split at h
  next hw =>
    split at h
    next x hx =>
      cases h
      refine ⟨x, ?_, rfl⟩
      rw [← eq_code_of_ofCode hx, BitVec.toNat_ofNat, Nat.mod_eq_of_lt hw]
    next => cases h
  next => cases h

/-! ### Unit words -/

theorem unitWord_lt {tag : Nat} (htag : tag < 256) (x y z : Word) :
    unitWord tag x y z < 256 ^ Format.unit.size := by
  have hx := x.isLt
  have hy := y.isLt
  have hz := z.isLt
  simp only [unitWord, Format.size]
  omega

section
variable {tag : Nat} (x y z : Word)

theorem unitWord_tag (htag : tag < 256) : unitWord tag x y z % 256 = tag := by
  simp only [unitWord]; omega

theorem unitWord_x (htag : tag < 256) : BitVec.ofNat 64 (unitWord tag x y z / 2 ^ 8) = x := by
  have hx := x.isLt
  exact BitVec.eq_of_toNat_eq (by simp only [unitWord, BitVec.toNat_ofNat]; omega)

theorem unitWord_y (htag : tag < 256) : BitVec.ofNat 64 (unitWord tag x y z / 2 ^ 72) = y := by
  have hx := x.isLt
  have hy := y.isLt
  exact BitVec.eq_of_toNat_eq (by simp only [unitWord, BitVec.toNat_ofNat]; omega)

theorem unitWord_z (htag : tag < 256) : BitVec.ofNat 64 (unitWord tag x y z / 2 ^ 136) = z := by
  have hx := x.isLt
  have hy := y.isLt
  have hz := z.isLt
  exact BitVec.eq_of_toNat_eq (by simp only [unitWord, BitVec.toNat_ofNat]; omega)

end

/-- A number that fits a unit packet is the unit word of a tag byte and three operand words (log 9). -/
theorem exists_eq_unitWord {w : Nat} (hw : w < 256 ^ Format.unit.size) :
    ∃ tag x y z, tag < 256 ∧ w = unitWord tag x y z := by
  refine ⟨w % 256, BitVec.ofNat 64 (w / 2 ^ 8), BitVec.ofNat 64 (w / 2 ^ 72),
    BitVec.ofNat 64 (w / 2 ^ 136), Nat.mod_lt _ (by decide), ?_⟩
  simp only [Format.size] at hw
  simp only [unitWord, BitVec.toNat_ofNat]
  omega

/-- An instruction is read only where the operand words it does not use are zero. -/
theorem noOperand_eq_ok {ws : List Word} {i j : Instr} (h : noOperand ws i = .ok j) :
    (∀ x ∈ ws, x = 0) ∧ i = j := by
  unfold noOperand at h
  split at h
  next hws =>
    cases h
    exact ⟨by simpa using hws, rfl⟩
  next => cases h

/-- The packet of a unit function holds a unit word that the decoder reads back (R75, R97). -/
theorem encode_of_isUnit {i : Instr} (hi : IsUnit i) (hwf : i.wf = true) :
    ∃ w, w < 256 ^ Format.unit.size ∧ encode i = packet .unit w ∧ decodeUnitWord w = .ok i := by
  cases i with
  | wmul | rotl | rotr | chi | rd32 | rd64 =>
    refine ⟨_, unitWord_lt (by decide) _ _ _, rfl, ?_⟩
    simp only [decodeUnitWord, Nat.reduceLT, unitWord_tag, unitWord_x, unitWord_y, unitWord_z,
      -Nat.reducePow]
    rfl
  | rdshort base n =>
    have hn : Instr.countOk n = true := hwf
    refine ⟨_, unitWord_lt (by decide) _ _ _, rfl, ?_⟩
    simp only [decodeUnitWord, Nat.reduceLT, unitWord_tag, unitWord_x, unitWord_y, unitWord_z, hn,
      -Nat.reducePow]
    rfl
  | _ => exact hi.elim

/-- A number accepted as a unit function is the word of that unit function. -/
theorem encode_of_decodeUnitWord {w : Nat} {i : Instr} (hw : w < 256 ^ Format.unit.size)
    (h : decodeUnitWord w = .ok i) : i.wf = true ∧ encode i = packet .unit w := by
  obtain ⟨tag, x, y, z, htag, rfl⟩ := exists_eq_unitWord hw
  simp only [decodeUnitWord, unitWord_tag x y z htag, unitWord_x x y z htag, unitWord_y x y z htag,
    unitWord_z x y z htag] at h
  split at h
  case h_4 =>
    obtain ⟨-, rfl⟩ := noOperand_eq_ok h
    exact ⟨rfl, rfl⟩
  case h_5 | h_6 =>
    obtain ⟨hzero, rfl⟩ := noOperand_eq_ok h
    obtain ⟨rfl, rfl⟩ : y = 0 ∧ z = 0 := by simpa using hzero
    exact ⟨rfl, rfl⟩
  case h_7 =>
    split at h
    next hn =>
      obtain ⟨hzero, rfl⟩ := noOperand_eq_ok h
      obtain rfl : z = 0 := by simpa using hzero
      exact ⟨hn, rfl⟩
    next => cases h
  case h_8 | h_9 => cases h
  all_goals
    obtain ⟨hzero, rfl⟩ := noOperand_eq_ok h
    obtain rfl : z = 0 := by simpa using hzero
    exact ⟨rfl, rfl⟩

/-! ### Decoder and encoder are inverse -/

/-- Every instruction is a command, a phase or a unit function (R79). -/
theorem instr_cases (i : Instr) :
    (∃ op seed len, i = commandInstr op seed len) ∨ (∃ x : Phase, i = x.instr) ∨ IsUnit i := by
  cases i with
  | hash64 seed len => exact .inl ⟨0b00#2, seed, len, rfl⟩
  | hash64f seed len => exact .inl ⟨0b01#2, seed, len, rfl⟩
  | hash128 seed len => exact .inl ⟨0b10#2, seed, len, rfl⟩
  | hash128f seed len => exact .inl ⟨0b11#2, seed, len, rfl⟩
  | idle => exact .inr (.inl ⟨.idle, rfl⟩)
  | short => exact .inr (.inl ⟨.short, rfl⟩)
  | epis64 => exact .inr (.inl ⟨.epis64, rfl⟩)
  | epis128 => exact .inr (.inl ⟨.epis128, rfl⟩)
  | init => exact .inr (.inl ⟨.init, rfl⟩)
  | blk96 => exact .inr (.inl ⟨.blk96, rfl⟩)
  | rclose => exact .inr (.inl ⟨.rclose, rfl⟩)
  | blk48 => exact .inr (.inl ⟨.blk48, rfl⟩)
  | blk24 => exact .inr (.inl ⟨.blk24, rfl⟩)
  | tail => exact .inr (.inl ⟨.tail, rfl⟩)
  | layerf => exact .inr (.inl ⟨.layerf, rfl⟩)
  | epil64 => exact .inr (.inl ⟨.epil64, rfl⟩)
  | epil128 => exact .inr (.inl ⟨.epil128, rfl⟩)
  | wmul | rotl | rotr | chi | rd32 | rd64 | rdshort => exact .inr (.inr trivial)

/-- The packet of a well-formed instruction holds a number that the decoder reads back. -/
theorem encode_eq_packet {i : Instr} (hwf : i.wf = true) :
    ∃ f w, w < 256 ^ f.size ∧ encode i = packet f w ∧ decodeWord f w = .ok i := by
  obtain ⟨op, seed, len, rfl⟩ | ⟨x, rfl⟩ | hi := instr_cases i
  · exact ⟨.cmd, _, cmdWord_lt op seed len, encode_commandInstr op seed len,
      decodeCmdWord_cmdWord op seed len⟩
  · exact ⟨.phase, _, Nat.lt_trans x.code.isLt (by decide), encode_phase x, decodePhaseWord_code x⟩
  · obtain ⟨w, hw, hpacket, hdecode⟩ := encode_of_isUnit hi hwf
    exact ⟨.unit, w, hw, hpacket, hdecode⟩

/-- Settles O1: by format, the word of the packet reads back field by field. -/
theorem decodeOfEncode : Obligations.DecodeOfEncode := by
  unfold Obligations.DecodeOfEncode
  intro i hwf
  obtain ⟨f, w, hw, hpacket, hdecode⟩ := encode_eq_packet hwf
  rw [hpacket, decode_packet hw, hdecode]

/-- A number that the decoder accepts is the number that the packet of a well-formed instruction
holds. -/
theorem encode_of_decodeWord {f : Format} {w : Nat} {i : Instr} (hw : w < 256 ^ f.size)
    (h : decodeWord f w = .ok i) : i.wf = true ∧ encode i = packet f w := by
  cases f with
  | cmd => exact encode_of_decodeCmdWord h
  | phase =>
    obtain ⟨x, rfl, rfl⟩ := decodePhaseWord_eq_ok h
    exact ⟨phase_wf x, encode_phase x⟩
  | unit => exact encode_of_decodeUnitWord hw h

/-- Settles O2: accepted bytes are the packet of their number, and their number is the word of the
instruction. -/
theorem encodeOfDecode : Obligations.EncodeOfDecode := by
  unfold Obligations.EncodeOfDecode
  intro f bs i h
  obtain ⟨hw, hpacket, hdecode⟩ := decode_eq_ok h
  rw [← hpacket]
  exact encode_of_decodeWord hw hdecode

/-- Settles O3: closed words, by evaluation. -/
theorem writtenWordsDecode : Obligations.WrittenWordsDecode :=
  ⟨rfl, rfl, rfl, rfl, rfl, rfl, rfl, rfl, rfl⟩

/-! ### What a step takes from a stored word -/

/-- A packet stored where the step takes its instruction is the instruction the step runs (log 3). -/
theorem step_withPacket (s : State) {k : Packet} {i : Instr}
    (h : decode k.format k.bytes = .ok i) : step (s.withPacket k) = exec i (s.withPacket k) := by
  obtain ⟨f, bs⟩ := k
  cases f with
  | cmd => exact step_call (bs := bs) rfl h
  | unit => exact step_bench (bs := bs) rfl rfl rfl h
  | phase =>
    obtain ⟨-, -, hword⟩ := decode_eq_ok h
    obtain ⟨x, hcode, rfl⟩ := decodePhaseWord_eq_ok hword
    refine step_phase _ x rfl ?_ fun _ => rfl
    rw [State.withPacket, hcode]
    exact BitVec.ofNat_toNat ..

/-- A table word is read as the decoder reads its packet. -/
theorem decodeTableWord_eq_some {nbits w : Nat} {i : Instr} (h : decodeTableWord nbits w = some i) :
    decode (tablePacket nbits w).format (tablePacket nbits w).bytes = .ok i := by
  unfold decodeTableWord at h
  split at h
  · split at h
    next j hj =>
      cases h
      exact hj
    next => cases h
  · cases h

/-- Settles O5: the stored word is a stored packet. -/
theorem fetchedTableWordRuns : Obligations.FetchedTableWordRuns := by
  unfold Obligations.FetchedTableWordRuns
  intro s nbits w i h
  exact step_withPacket s (decodeTableWord_eq_some h)

/-! ### The bytes of a digest -/

theorem leNat_append (xs ys : List Byte) :
    leNat (xs ++ ys) = leNat xs + 256 ^ xs.length * leNat ys := by
  induction xs with
  | nil => simp [leNat]
  | cons x xs ih =>
    simp only [List.cons_append, leNat, ih, List.length_cons, pow_succ]
    ring

/-- Two numbers one after the other are the bytes of one number, the first in its low bytes (R51). -/
theorem leBytes_append {n v : Nat} (m w : Nat) (hv : v < 256 ^ n) (hw : w < 256 ^ m) :
    leBytes n v ++ leBytes m w = leBytes (n + m) (v + 256 ^ n * w) := by
  have hbytes := leBytes_leNat (leBytes n v ++ leBytes m w)
  rw [leNat_append, leNat_leBytes n v hv, leNat_leBytes m w hw, List.length_append,
    leBytes_length, leBytes_length] at hbytes
  exact hbytes.symm

/-- Settles O50: the two words one after the other are one number, `DIGEST0` in its low half. -/
theorem digestBytesLowWordFirst : Obligations.DigestBytesLowWordFirst := by
  unfold Obligations.DigestBytesLowWordFirst
  intro s
  have h0 : s.digest0.toNat < 256 ^ 8 := s.digest0.isLt
  have h1 : s.digest1.toNat < 256 ^ 8 := s.digest1.isLt
  refine ⟨fun hwide => ?_, fun hnarrow => ?_⟩
  · rw [State.digestBytes, if_pos hwide, leBytes_append 8 _ h0 h1]
    congr 1
    omega
  · have hbytes : s.digestBytes = leBytes 8 s.digest0.toNat := by simp [State.digestBytes, hnarrow]
    rw [hbytes]
    exact ⟨leBytes_length _ _, leNat_leBytes _ _ h0⟩

/-! ### The bench -/

/-- With nothing presented and the bench empty a step is the phase that `PHASE` names. -/
theorem step_next_phase {s t : State} (hr : s.request = .none) (hu : s.unitIn = none)
    (h : step s = .next t) : ∃ x : Phase, exec x.instr s = .next t := by
  simp only [step, stepOf, fetch, hr] at h
  split at h
  next i hi =>
    obtain ⟨x, -, rfl⟩ | ⟨bs, -, hbs, -⟩ := fetchRow_eq_ok hi
    · exact ⟨x, h⟩
    · rw [hu] at hbs
      cases hbs
  next => cases h

/-- With a command packet presented a step is that command. -/
theorem step_next_call {s t : State} {bs : List Byte} (hr : s.request = .call bs)
    (h : step s = .next t) : ∃ op seed len, exec (commandInstr op seed len) s = .next t := by
  simp only [step, stepOf, fetch, hr] at h
  split at h
  next i hi =>
    obtain ⟨op, seed, len, rfl⟩ := decode_cmd_eq_ok (fetchPacket_eq_ok_iff.1 hi)
    exact ⟨op, seed, len, h⟩
  next => cases h

/-- What a command keeps includes the bench. -/
theorem bench_of_context {c : Command} {s t : State} (h : contextOf t = startedContext c s) :
    t.unitIn = s.unitIn ∧ t.unitOut = s.unitOut :=
  ⟨congrArg Context.unitIn h, congrArg Context.unitOut h⟩

/-- Settles O53: by what the host presents; a unit function runs only from the bench's slot. -/
theorem hostInvokesNoUnit : Obligations.HostInvokesNoUnit := by
  unfold Obligations.HostInvokesNoUnit
  intro s t hu h
  rw [← hu]
  cases hr : s.request with
  | reset =>
    rw [step_reset s hr] at h
    cases h
    exact ⟨rfl, rfl⟩
  | place base bs =>
    rw [step_place s base bs hr] at h
    rw [hostPlace_next h]
    exact ⟨rfl, rfl⟩
  | start c =>
    rw [step_start s c hr] at h
    have hin : InPhase c s (startPhase c.len) t := (start_answers id).1 t h
    exact bench_of_context hin.context
  | call bs =>
    obtain ⟨op, seed, len, ht⟩ := step_next_call hr h
    exact bench_of_context (ended_of_command ht).context
  | none =>
    obtain ⟨x, ht⟩ := step_next_phase hr hu h
    obtain ⟨-, -, -, hin, hout, -⟩ :=
      phasesKeepOtherRegisters x s t (fun c hc => by rw [hr] at hc; cases hc) ht
    exact ⟨hin, hout⟩

/-! ### A `PHASE` that names no phase -/

section
variable {s : State} (hphase : 13 ≤ s.phase.toNat)
include hphase

theorem start_of_reserved (c : Command) :
    start c s = .refused (if s.busy then .startWhileBusy else .reservedPhase s.phase) := by
  unfold start
  split
  · rfl
  · exact namedPhase_of_reserved s _ hphase

theorem exec_command_of_reserved (op : BitVec 2) (seed len : Word) :
    exec (commandInstr op seed len) s =
      .refused (if s.busy then .startWhileBusy else .reservedPhase s.phase) := by
  rw [exec_eq_execWith, execWith_commandInstr, transaction, start_of_reserved hphase,
    andThen_refused]

theorem hostPlace_of_reserved (base : Nat) (bs : List Byte) :
    hostPlace base bs s = .refused
      (if s.busy && changesMessage s.msg s.len.toNat base bs then .messageChanged
        else .reservedPhase s.phase) := by
  unfold hostPlace
  split
  · rfl
  · exact namedPhase_of_reserved s _ hphase

/-- The row of a reserved code is refused, whether a unit function waits or not: the bench acts in
IDLE only (R73, log 4). -/
theorem fetchRow_of_reserved : fetchRow s = .error (.reservedPhase s.phase) := by
  have hrow : fetchPhase s = .error (.reservedPhase s.phase) := by
    simp [fetchPhase, ofCode_eq_none s.phase hphase]
  have hidle : s.phase ≠ Phase.idle.code := fun h => by
    rw [h] at hphase
    exact absurd hphase (by decide)
  unfold fetchRow
  split
  · rw [if_neg hidle, hrow]
  · exact hrow

theorem step_none_of_reserved (hr : s.request = .none) :
    step s = .refused (.reservedPhase s.phase) := by
  simp [step, stepOf, fetch, hr, fetchRow_of_reserved hphase]

/-- A presented packet is refused as no encoding, or as the command it is. -/
theorem step_call_of_reserved {bs : List Byte} (hr : s.request = .call bs) :
    ∃ r, step s = .refused r := by
  cases hd : decode .cmd bs with
  | ok i =>
    obtain ⟨op, seed, len, rfl⟩ := decode_cmd_eq_ok hd
    exact ⟨_, (step_call hr hd).trans (exec_command_of_reserved hphase op seed len)⟩
  | error e => exact ⟨.undecodable e, by simp [step, stepOf, fetch, fetchPacket, hr, hd]⟩

end

/-- Settles O6: by what the host presents, START and the placing of bytes with the reason that the flag
leaves. -/
theorem reservedPhaseCodesRefused : Obligations.ReservedPhaseCodesRefused := by
  unfold Obligations.ReservedPhaseCodesRefused
  intro s hphase
  refine ⟨fun hreset => ?_, step_none_of_reserved hphase, fun hbusy =>
    ⟨fun c hr => ?_, fun base bs hr => ?_, fun op seed len => ?_⟩⟩
  · cases hr : s.request with
    | none => exact ⟨_, step_none_of_reserved hphase hr⟩
    | start c => exact ⟨_, (step_start s c hr).trans (start_of_reserved hphase c)⟩
    | reset => exact absurd hr hreset
    | place base bs =>
      exact ⟨_, (step_place s base bs hr).trans (hostPlace_of_reserved hphase base bs)⟩
    | call bs => exact step_call_of_reserved hphase hr
  · simp [step_start s c hr, start_of_reserved hphase, hbusy]
  · simp [step_place s base bs hr, hostPlace_of_reserved hphase, hbusy]
  · simp [exec_command_of_reserved hphase, hbusy]

end Sys2Proof.Encoding

/-! SUPPORT and PROOFS for the programs of spec/30_encoding.md R77: one command on two engines with the
same message bytes below `LEN` stays in step phase by phase, so a program answers alike on both. -/

namespace Sys2Proof.Programs

open Sys2Proof.Machine Sys2Proof.Laws Sys2Proof.Grains Sys2Proof.Registers

/-! ### Reads from two memories that agree -/

/-- Folds with the same steps are the same. -/
theorem foldlM_congr {α β : Type} {f g : β → α → Except Fault β} {l : List α}
    (h : ∀ x ∈ l, ∀ acc, f acc x = g acc x) (acc : β) : l.foldlM f acc = l.foldlM g acc := by
  induction l generalizing acc with
  | nil => rfl
  | cons x l ih =>
    obtain ⟨hx, hl⟩ := List.forall_mem_cons.1 h
    rw [List.foldlM_cons, List.foldlM_cons, hx acc]
    exact bind_congr fun v => ih hl v

section
variable {m m' : Mem} {n a p q : Nat} (hm : AgreeBelow m m' n)
include hm

theorem memRead_of_agree {w : Nat} (h : a + w ≤ n) : memRead m a w = memRead m' a w :=
  memRead_congr m m' a w fun x _ hx => hm x (by omega)

theorem rd64_of_agree (h : a + 8 ≤ n) : rd64 m a = rd64 m' a := by
  simp only [rd64, memRead_of_agree hm h]

theorem rd32_of_agree (h : a + 4 ≤ n) : rd32 m a = rd32 m' a := by
  simp only [rd32, memRead_of_agree hm h]

theorem rd8_of_agree (h : a + 1 ≤ n) : rd8 m a = rd8 m' a := by
  simp only [rd8, memRead_of_agree hm h]

/-- RDSHORT reads inside its own `q` bytes (R57). -/
theorem rdshort_of_agree (h : p + q ≤ n) : rdshort m p q = rdshort m' p q := by
  have hoff : shortOff q ≤ q - 4 := by unfold shortOff; split <;> omega
  unfold rdshort
  split
  next h4 =>
    rw [rd32_of_agree hm (a := p) (by omega), rd32_of_agree hm (a := p + q - 4) (by omega),
      rd32_of_agree hm (a := p + shortOff q) (by omega),
      rd32_of_agree hm (a := p + q - 4 - shortOff q) (by omega)]
  next =>
    split
    next h1 =>
      rw [rd8_of_agree hm (a := p) (by omega), rd8_of_agree hm (a := p + q / 2) (by omega),
        rd8_of_agree hm (a := p + q - 1) (by omega)]
    next => rfl

theorem tailRead_of_agree (h : p + q ≤ n) : tailRead m p q = tailRead m' p q := by
  unfold tailRead
  split
  · rw [rdshort_of_agree hm h]
  · rw [rd64_of_agree hm (a := p) (by omega), rd64_of_agree hm (a := p + 8) (by omega),
      rd64_of_agree hm (a := p + q - 8) (by omega)]

theorem blk96Mix_of_agree (fast : Bool) (l : Lanes) (ring : Word) (h : p + 96 ≤ n) :
    blk96Mix fast m p l ring = blk96Mix fast m' p l ring := by
  refine foldlM_congr (fun ⟨k, x, y⟩ hx acc => ?_) _
  have hk : k ≤ 5 := by
    simp only [ringPairs, List.mem_cons, Prod.mk.injEq, List.not_mem_nil, or_false] at hx
    omega
  simp only [blk96Step]
  rw [rd64_of_agree hm (a := p + 16 * k) (by omega),
    rd64_of_agree hm (a := p + 16 * k + 8) (by omega)]

theorem blk48Mix_of_agree (fast : Bool) (l : Lanes) (h : p + 48 ≤ n) :
    blk48Mix fast m p l = blk48Mix fast m' p l := by
  refine foldlM_congr (fun ⟨k, x, y⟩ hx acc => ?_) _
  have hk : k ≤ 2 := by
    simp only [List.mem_cons, Prod.mk.injEq, List.not_mem_nil, or_false] at hx
    omega
  simp only [blk48Step]
  rw [rd64_of_agree hm (a := p + 16 * k) (by omega),
    rd64_of_agree hm (a := p + 16 * k + 8) (by omega)]

theorem blk24Mix_of_agree (fast : Bool) (l : Lanes) (h : p + 24 ≤ n) :
    blk24Mix fast m p l = blk24Mix fast m' p l := by
  refine foldlM_congr (fun ⟨k, x, y⟩ hx acc => ?_) _
  have hk : k ≤ 2 := by
    simp only [List.mem_cons, Prod.mk.injEq, List.not_mem_nil, or_false] at hx
    omega
  simp only [blk24Step]
  rw [rd64_of_agree hm (a := p + 8 * k) (by omega)]

end

/-! ### Results that are alike -/

/-- Two results that stop for the same reason, or go on with states of `R`. -/
inductive Alike (R : State → State → Prop) : Result → Result → Prop
  | next {t t' : State} (h : R t t') : Alike R (.next t) (.next t')
  | fault (e : Fault) : Alike R (.fault e) (.fault e)
  | refused (e : Refusal) : Alike R (.refused e) (.refused e)

section
variable {P Q R : State → State → Prop}

theorem alike_onRead {α : Type} {r r' : Except Fault α} {f f' : α → Result} (hr : r = r')
    (hf : ∀ v, Alike R (f v) (f' v)) : Alike R (onRead r f) (onRead r' f') := by
  subst hr
  cases r with
  | ok v => exact hf v
  | error e => exact .fault e

theorem alike_andThen {r r' : Result} {f f' : State → Result} (hr : Alike P r r')
    (hf : ∀ t t', P t t' → Alike R (f t) (f' t')) :
    Alike R (andThen r f) (andThen r' f') := by
  cases hr with
  | next h => exact hf _ _ h
  | fault e => exact .fault e
  | refused e => exact .refused e

theorem Alike.of_next {r' : Result} {t : State} (h : Alike R (.next t) r') :
    ∃ t', r' = .next t' ∧ R t t' := by
  cases h with
  | next h => exact ⟨_, rfl, h⟩

/-- From any two states of `P`, `f` answers alike, in states of `Q`. -/
def Lockstep (f : State → Result) (P Q : State → State → Prop) : Prop :=
  ∀ s s', P s s' → Alike Q (f s) (f s')

theorem Lockstep.skip (h : ∀ s s', P s s' → Q s s') : Lockstep .next P Q :=
  fun s s' hs => .next (h s s' hs)

theorem Lockstep.comp {f g : State → Result} (hf : Lockstep f P Q) (hg : Lockstep g Q R) :
    Lockstep (fun s => andThen (f s) g) P R :=
  fun s s' hs => alike_andThen (hf s s' hs) hg

end

/-! ### One command on two engines -/

/-- What a phase reads besides its registers: the operands, and the message below `LEN`. -/
structure SameInputs (s s' : State) : Prop where
  op : s.op = s'.op
  seed : s.seed = s'.seed
  len : s.len = s'.len
  msg : AgreeBelow s.msg s'.msg s.len.toNat

/-- The registers of the tower are the same (R21, R23, R25). -/
structure SameTower (s s' : State) : Prop where
  lanes : s.lanes = s'.lanes
  ring : s.ring = s'.ring
  p : s.p = s'.p
  q : s.q = s'.q

/-- The lanes of the short path are the same (R22). -/
structure SameIJ (s s' : State) : Prop where
  laneI : s.laneI = s'.laneI
  laneJ : s.laneJ = s'.laneJ

/-- The lanes of the finalization are the same (R22). -/
structure SameIJK (s s' : State) : Prop extends SameIJ s s' where
  laneK : s.laneK = s'.laneK

/-- The digest of a command of code `op` is the same: `DIGEST1` only of a 128-bit one (R157, U3). -/
structure SameDigest (op : BitVec 2) (s s' : State) : Prop where
  digest0 : s.digest0 = s'.digest0
  digest1 : wideOf op = true → s.digest1 = s'.digest1

/-- The same command, started from `b` and from `b'`, stands in `P` on both engines, and what is still
to be read is the same. -/
structure Both (b b' : State) (P : State → State → Prop) (R : State → State → Prop)
    (s s' : State) : Prop where
  left : P b s
  right : P b' s'
  same : R s s'

section
variable {k : Config.Consts} {c : Command} {b b' : State} {P Q : State → State → Prop}
  {R S : State → State → Prop}

/-- What holds on each engine by itself holds beside what is the same on both. -/
theorem alike_both {r r' : Result} {H H' : Prop} (hr : Alike S r r') (h : Answers H r (Q b))
    (h' : Answers H' r' (Q b')) : Alike (Both b b' Q S) r r' := by
  cases hr with
  | next hs => exact .next ⟨h.1 _ rfl, h'.1 _ rfl, hs⟩
  | fault e => exact .fault e
  | refused e => exact .refused e

theorem Lockstep.of_answers {f : State → Result}
    (hans : ∀ {b s}, P b s → Answers (Held c b) (f s) (Q b))
    (hsame : ∀ {s s'}, Both b b' P R s s' → Alike S (f s) (f s')) :
    Lockstep f (Both b b' P R) (Both b b' Q S) :=
  fun _ _ hs => alike_both (hsame hs) (hans hs.left) (hans hs.right)

/-- RCLOSE where there were blocks of 96 bytes, else nothing (R152). -/
theorem lockstep_close : Lockstep (fun s => if c.len.toNat ≥ 96 then execRclose s else .next s)
    (Both b b' (fun b => InPhase c b (afterBlocks c.len)) SameTower)
    (Both b b' (fun b => InPhase c b .blk48) SameTower) := by
  unfold afterBlocks
  by_cases h96 : c.len.toNat ≥ 96
  · simp only [if_pos h96]
    refine .of_answers execRclose_answers fun {s s'} h => ?_
    obtain ⟨hl, hring, hp, hq⟩ := h.same
    rw [execRclose, execRclose, ← hl, ← hring]
    exact .next ⟨rfl, rfl, hp, hq⟩
  · simp only [if_neg h96]
    exact .skip fun s s' h => h

variable (hm : AgreeBelow b.msg b'.msg c.len.toNat)
include hm

theorem sameInputs {x : Phase} {s s' : State} (h : Both b b' (fun b => InPhase c b x) R s s') :
    SameInputs s s' where
  op := h.left.op_eq.trans h.right.op_eq.symm
  seed := (congrArg Context.seed h.left.context).trans (congrArg Context.seed h.right.context).symm
  len := h.left.len_eq.trans h.right.len_eq.symm
  msg := by rw [h.left.len_eq, h.left.msg_eq, h.right.msg_eq]; exact hm

theorem lockstep_short : Lockstep (shortWith k)
    (Both b b' (fun b => InPhase c b .short) fun _ _ => True)
    (Both b b' (fun b => InPhase c b (afterShort c.op)) SameIJ) := by
  refine .of_answers shortWith_answers fun {s s'} h => ?_
  obtain ⟨-, hseed, hlen, hmsg⟩ := sameInputs hm h
  rw [shortWith, shortWith, ← hseed, ← hlen]
  exact alike_onRead (rdshort_of_agree hmsg (by omega)) fun v => .next ⟨rfl, rfl⟩

theorem lockstep_epis : Lockstep (execWith k (afterShort c.op).instr)
    (Both b b' (fun b => InPhase c b (afterShort c.op)) SameIJ)
    (Both b b' (Ended c) (SameDigest c.op)) := by
  refine .of_answers epis_answers fun {s s'} h => ?_
  obtain ⟨hop, -⟩ := sameInputs hm h
  obtain ⟨hi, hj⟩ := h.same
  unfold afterShort
  split
  · simp only [Phase.instr, execWith, epis128With, hop, hi, hj]
    exact .next ⟨rfl, fun _ => rfl⟩
  next hnarrow =>
    simp only [Phase.instr, execWith, epis64With, hi, hj]
    exact .next ⟨rfl, fun hwide => absurd hwide hnarrow⟩

theorem lockstep_init : Lockstep (initWith k)
    (Both b b' (fun b => InPhase c b .init) fun _ _ => True)
    (Both b b' (fun b => BlocksLeft c b (c.len.toNat / 96)) SameTower) := by
  refine .of_answers initWith_answers fun {s s'} h => ?_
  obtain ⟨-, hseed, hlen, -⟩ := sameInputs hm h
  rw [initWith, initWith, ← hseed, ← hlen]
  exact .next ⟨rfl, rfl, rfl, rfl⟩

theorem lockstep_blk96 (n : Nat) : Lockstep execBlk96
    (Both b b' (fun b => BlocksLeft c b (n + 1)) SameTower)
    (Both b b' (fun b => BlocksLeft c b n) SameTower) := by
  refine .of_answers execBlk96_answers fun {s s'} h => ?_
  have hin : Both b b' (fun b => InPhase c b .blk96) SameTower s s' :=
    ⟨h.left.1, h.right.1, h.same⟩
  obtain ⟨hop, -, -, hmsg⟩ := sameInputs hm hin
  obtain ⟨hq, -, hpq⟩ := hin.left.inv
  obtain ⟨hl, hring, hp, hq'⟩ := h.same
  rw [execBlk96, execBlk96, ← hop, ← hl, ← hring, ← hp, ← hq']
  exact alike_onRead (blk96Mix_of_agree hmsg _ _ _ (by omega)) fun v => .next ⟨rfl, rfl, rfl, rfl⟩

theorem lockstep_blocks (n : Nat) : Lockstep (times execBlk96 n)
    (Both b b' (fun b => BlocksLeft c b n) SameTower)
    (Both b b' (fun b => InPhase c b (afterBlocks c.len)) SameTower) := by
  induction n with
  | zero => exact .skip fun s s' h => ⟨h.left.1, h.right.1, h.same⟩
  | succ n ih => exact (lockstep_blk96 hm n).comp ih

theorem lockstep_blk48 : Lockstep execBlk48
    (Both b b' (fun b => InPhase c b .blk48) SameTower)
    (Both b b' (fun b => InPhase c b .blk24) SameTower) := by
  refine .of_answers execBlk48_answers fun {s s'} h => ?_
  obtain ⟨hop, -, -, hmsg⟩ := sameInputs hm h
  obtain ⟨-, -, hpq⟩ := h.left.inv
  obtain ⟨hl, hring, hp, hq⟩ := h.same
  rw [execBlk48, execBlk48, ← hop, ← hl, ← hp, ← hq]
  split
  · exact alike_onRead (blk48Mix_of_agree hmsg _ _ (by omega)) fun v => .next ⟨rfl, hring, rfl, rfl⟩
  · exact .next ⟨hl, hring, hp, hq⟩

theorem lockstep_blk24 : Lockstep execBlk24
    (Both b b' (fun b => InPhase c b .blk24) SameTower)
    (Both b b' (fun b => InPhase c b .tail) SameTower) := by
  refine .of_answers execBlk24_answers fun {s s'} h => ?_
  obtain ⟨hop, -, -, hmsg⟩ := sameInputs hm h
  obtain ⟨-, -, hpq⟩ := h.left.inv
  obtain ⟨hl, hring, hp, hq⟩ := h.same
  rw [execBlk24, execBlk24, ← hop, ← hl, ← hp, ← hq]
  split
  · exact alike_onRead (blk24Mix_of_agree hmsg _ _ (by omega)) fun v => .next ⟨rfl, hring, rfl, rfl⟩
  · exact .next ⟨hl, hring, hp, hq⟩

theorem lockstep_tail : Lockstep execTail
    (Both b b' (fun b => InPhase c b .tail) SameTower)
    (Both b b' (fun b => InPhase c b .layerf) SameIJK) := by
  refine .of_answers execTail_answers fun {s s'} h => ?_
  obtain ⟨-, -, hlen, hmsg⟩ := sameInputs hm h
  obtain ⟨-, -, hpq⟩ := h.left.inv
  obtain ⟨hl, -, hp, hq⟩ := h.same
  rw [execTail, execTail, ← hlen, ← hl, ← hp, ← hq]
  refine alike_onRead (tailRead_of_agree hmsg (by omega)) fun v => ?_
  dsimp only
  split
  · exact .next ⟨⟨rfl, rfl⟩, rfl⟩
  · exact .next ⟨⟨rfl, rfl⟩, rfl⟩

theorem lockstep_layerf : Lockstep (layerfWith k)
    (Both b b' (fun b => InPhase c b .layerf) SameIJK)
    (Both b b' (fun b => InPhase c b (afterLayerf c.op)) SameIJK) := by
  refine .of_answers layerfWith_answers fun {s s'} h => ?_
  obtain ⟨hop, -, hlen, -⟩ := sameInputs hm h
  obtain ⟨⟨hi, hj⟩, hk⟩ := h.same
  rw [layerfWith, layerfWith, ← hop, ← hlen, ← hi, ← hj, ← hk]
  exact .next ⟨⟨rfl, rfl⟩, rfl⟩

theorem lockstep_epil : Lockstep (execWith k (afterLayerf c.op).instr)
    (Both b b' (fun b => InPhase c b (afterLayerf c.op)) SameIJK)
    (Both b b' (Ended c) (SameDigest c.op)) := by
  refine .of_answers epil_answers fun {s s'} h => ?_
  obtain ⟨hop, -⟩ := sameInputs hm h
  obtain ⟨⟨hi, hj⟩, hk⟩ := h.same
  unfold afterLayerf
  split
  · simp only [Phase.instr, execWith, epil128With, hop, hi, hj, hk]
    exact .next ⟨rfl, fun _ => rfl⟩
  next hnarrow =>
    simp only [Phase.instr, execWith, epil64With, hop, hi, hj, hk]
    exact .next ⟨rfl, fun hwide => absurd hwide hnarrow⟩

theorem lockstep_longPath :
    Lockstep (longPath k c.len.toNat (execWith k (afterLayerf c.op).instr))
      (Both b b' (fun b => InPhase c b .init) fun _ _ => True)
      (Both b b' (Ended c) (SameDigest c.op)) :=
  (lockstep_init hm).comp <| (lockstep_blocks hm _).comp <| lockstep_close.comp <|
    (lockstep_blk48 hm).comp <| (lockstep_blk24 hm).comp <| (lockstep_tail hm).comp <|
    (lockstep_layerf hm).comp (lockstep_epil hm)

/-- The path that `LEN` selects (R151). -/
theorem lockstep_path :
    Lockstep (fun s => if c.len.toNat ≤ 16 then shortPath k (execWith k (afterShort c.op).instr) s
        else longPath k c.len.toNat (execWith k (afterLayerf c.op).instr) s)
      (Both b b' (fun b => InPhase c b (startPhase c.len)) fun _ _ => True)
      (Both b b' (Ended c) (SameDigest c.op)) := by
  unfold startPhase
  by_cases hlen : c.len.toNat ≤ 16
  · simp only [if_pos hlen]
    exact (lockstep_short hm).comp (lockstep_epis hm)
  · simp only [if_neg hlen]
    exact lockstep_longPath hm

end

/-- A command on two engines that accept it, with the same message bytes below `LEN`, stops for the
same reason or completes with the same digest (R158). -/
theorem command_alike (k : Config.Consts) (op : BitVec 2) (seed len : Word) {s s' : State}
    (hs : Ready s) (hs' : Ready s') (hm : AgreeBelow s.msg s'.msg len.toNat) :
    Alike (Both s s' (Ended ⟨op, seed, len⟩) (SameDigest op))
      (execWith k (commandInstr op seed len) s) (execWith k (commandInstr op seed len) s') := by
  have hstart : Alike
      (Both s s' (fun b => InPhase ⟨op, seed, len⟩ b (startPhase len)) fun _ _ => True)
      (start ⟨op, seed, len⟩ s) (start ⟨op, seed, len⟩ s') := by
    refine alike_both ?_ (start_answers id) (start_answers id)
    rw [start_of_ready _ s hs, start_of_ready _ s' hs']
    exact .next trivial
  rw [execWith_commandInstr, execWith_commandInstr]
  exact alike_andThen hstart (lockstep_path hm)

/-! ### The bytes a host places -/

/-- Bytes placed read back, as far as their offsets have 64 bits; every other byte reads as before
(R161). -/
theorem byte?_writes (bs : List Byte) (m : Mem) (a x : Nat) :
    (m.writes a bs).byte? x =
      if a ≤ x ∧ x < a + bs.length ∧ x < 2 ^ 64 then bs[x - a]? else m.byte? x := by
  induction bs generalizing m a with
  | nil =>
    rw [if_neg (by simp only [List.length_nil]; omega)]
    rfl
  | cons b bs ih =>
    rw [Mem.writes, ih, byte?_write, List.length_cons]
    by_cases hx : x = a
    · subst hx
      rw [if_neg (by omega)]
      by_cases h64 : x < 2 ^ 64
      · rw [if_pos ⟨rfl, h64⟩, if_pos (by omega), Nat.sub_self, List.getElem?_cons_zero]
      · rw [if_neg (by omega), if_neg (by omega)]
    · rw [if_neg (c := x = a ∧ a < 2 ^ 64) fun h => hx h.1]
      by_cases hin : a + 1 ≤ x ∧ x < a + 1 + bs.length ∧ x < 2 ^ 64
      · have hsub : x - a = x - (a + 1) + 1 := by omega
        rw [if_pos hin, if_pos (by omega), hsub, List.getElem?_cons_succ]
      · rw [if_neg hin, if_neg (by omega)]

/-- With no command in progress the host's bytes are placed (R161). -/
theorem hostPlace_of_ready (base : Nat) (bs : List Byte) {s : State} (hs : Ready s) :
    hostPlace base bs s = .next ({ s with msg := s.msg.writes base bs }.retire) := by
  obtain ⟨hbusy, hphase⟩ := hs
  simp [hostPlace, hbusy, namedPhase_of_isSome s _ hphase]

/-- The state in which the command of a job is called. -/
def placed (bytes : List Byte) (s : State) : State :=
  { s with msg := s.msg.writes 0 bytes, request := .none }

theorem placed_ready {s : State} (bytes : List Byte) (hs : Ready s) : Ready (placed bytes s) := hs

/-- A byte of the message is the byte the host placed there. -/
theorem placed_byte? {bytes : List Byte} {len : Word} (hlen : len.toNat ≤ bytes.length) (s : State)
    {x : Nat} (hx : x < len.toNat) : (placed bytes s).msg.byte? x = bytes[x]? := by
  have h64 := len.isLt
  rw [placed, byte?_writes, if_pos (by omega), Nat.sub_zero]

theorem placed_holds {bytes : List Byte} {len : Word} (hlen : len.toNat ≤ bytes.length)
    (s : State) : Holds (placed bytes s).msg 0 len.toNat := by
  intro x _ hx
  rw [has_eq_true_iff, placed_byte? hlen s hx]
  exact ⟨_, List.getElem?_eq_getElem (by omega)⟩

/-- The message of a job does not depend on what was held before (R161). -/
theorem placed_agree {bytes : List Byte} {len : Word} (hlen : len.toNat ≤ bytes.length)
    (s s' : State) : AgreeBelow (placed bytes s).msg (placed bytes s').msg len.toNat :=
  fun _ hx => (placed_byte? hlen s hx).trans (placed_byte? hlen s' hx).symm

/-! ### Jobs and programs -/

/-- Where START is accepted the command of a job is called with its bytes placed (R161). -/
theorem job_run {s : State} (j : Job) (hs : Ready s) :
    j.run s = exec (commandInstr j.op j.seed j.len) (placed j.bytes s) := by
  have hplace : step { s with request := .place 0 j.bytes } = .next (placed j.bytes s) :=
    (step_place _ 0 j.bytes rfl).trans (hostPlace_of_ready 0 j.bytes hs)
  rw [Job.run, hplace, andThen_next]

/-- A command that has ended leaves an engine that accepts START (R157). -/
theorem ready_of_ended {c : Command} {b t : State} (h : Ended c b t) : Ready t := by
  obtain ⟨-, -, hbusy, hphase, -⟩ := h
  exact ⟨hbusy, by rw [hphase]; rfl⟩

/-- Ended commands of one code with the same digest words have the same digest bytes (R78). -/
theorem digestBytes_of_both {c : Command} {b b' t t' : State}
    (h : Both b b' (Ended c) (SameDigest c.op) t t') : t.digestBytes = t'.digestBytes := by
  obtain ⟨⟨hctx, -⟩, ⟨hctx', -⟩, h0, h1⟩ := h
  have hop : t.op = c.op := congrArg Context.op hctx
  have hop' : t'.op = c.op := congrArg Context.op hctx'
  rw [State.digestBytes, State.digestBytes, hop, hop', h0]
  split
  next hwide => rw [h1 hwide]
  next => rfl

/-- A job whose bytes are placed completes on any two engines that accept it, with the same digest. -/
theorem job_run_both (j : Job) (hlen : j.len.toNat ≤ j.bytes.length) {s s' : State} (hs : Ready s)
    (hs' : Ready s') :
    ∃ t t', j.run s = .next t ∧ j.run s' = .next t' ∧ Ready t ∧ Ready t' ∧
      t.digestBytes = t'.digestBytes := by
  have hr := placed_ready j.bytes hs
  have hr' := placed_ready j.bytes hs'
  obtain ⟨t, ht, -⟩ :=
    transaction_ends Config.consts j.op j.seed j.len _ hr (placed_holds hlen s)
  have halike := command_alike Config.consts j.op j.seed j.len hr hr' (placed_agree hlen s s')
  rw [ht] at halike
  obtain ⟨t', ht', hboth⟩ := halike.of_next
  refine ⟨t, t', ?_, ?_, ready_of_ended hboth.left, ready_of_ended hboth.right,
    digestBytes_of_both hboth⟩
  · rw [job_run j hs, exec_eq_execWith, ht]
  · rw [job_run j hs', exec_eq_execWith, ht']

/-- The first command of a program completes and the rest runs on (R160). -/
theorem runProgram_cons_of_next {job : List (List Byte) → Job} (p : Program) {ds : List (List Byte)}
    {s t : State} (h : (job ds).run s = .next t) :
    runProgram (job :: p) ds s = runProgram p (ds ++ [t.digestBytes]) t := by
  rw [runProgram, h]

/-- The first command of a program faults and ends it (R160). -/
theorem runProgram_cons_of_fault {job : List (List Byte) → Job} (p : Program)
    {ds : List (List Byte)} {s : State} {a : Nat} (h : (job ds).run s = .fault (.msgFault a)) :
    runProgram (job :: p) ds s = .faulted a := by
  rw [runProgram, h]

/-- A program whose messages are placed runs to its end alike on two engines that accept START. -/
theorem runProgram_both (p : Program) (ds : List (List Byte)) {s s' : State} (hs : Ready s)
    (hs' : Ready s') (hp : ∀ job ∈ p, ∀ xs, (job xs).len.toNat ≤ (job xs).bytes.length) :
    ∃ out t t', runProgram p ds s = .completed (ds ++ out) t ∧
      runProgram p ds s' = .completed (ds ++ out) t' ∧ out.length = p.length ∧
      Ready t ∧ Ready t' := by
  induction p generalizing ds s s' with
  | nil => exact ⟨[], s, s', by simp [runProgram], by simp [runProgram], rfl, hs, hs'⟩
  | cons job p ih =>
    obtain ⟨hjob, hrest⟩ := List.forall_mem_cons.1 hp
    obtain ⟨u, u', hu, hu', hur, hur', hdigest⟩ := job_run_both (job ds) (hjob ds) hs hs'
    obtain ⟨out, t, t', ht, ht', hlen, htr, htr'⟩ := ih (ds ++ [u.digestBytes]) hur hur' hrest
    refine ⟨u.digestBytes :: out, t, t', ?_, ?_, by simp [hlen], htr, htr'⟩
    · rw [runProgram_cons_of_next p hu, ht, List.append_assoc, List.singleton_append]
    · rw [runProgram_cons_of_next p hu', ← hdigest, ht', List.append_assoc, List.singleton_append]

/-- Settles O54: by induction on the program, one job on both engines after the other. -/
theorem programRunsToItsEnd : Obligations.ProgramRunsToItsEnd := by
  unfold Obligations.ProgramRunsToItsEnd
  exact ⟨fun p ds s s' hs hs' hp => runProgram_both p ds hs hs' hp,
    fun job p ds s a h => runProgram_cons_of_fault p h⟩

end Sys2Proof.Programs

/-! SUPPORT and PROOFS for the statements of spec/40_primitives.md: the seven unit functions, what they
compute and that the bench alone changes. -/

namespace Sys2Proof.Primitives

open Sys2Proof.Machine Sys2Proof.Laws Sys2Proof.Memory

/-! ### WMUL -/

section
variable (a b : Word)

/-- The halves put together are the whole product (R91). -/
theorem wmul_toNat : (wmul a b).2.toNat * 2 ^ 64 + (wmul a b).1.toNat = a.toNat * b.toNat := by
  have hprod : a.toNat * b.toNat < 2 ^ 64 * 2 ^ 64 := Nat.mul_lt_mul'' a.isLt b.isLt
  simp only [wmul, BitVec.toNat_ofNat]
  omega

/-- The square of the largest word leaves the high half below the largest word (R91). -/
theorem wmul_high_ne_allOnes : (wmul a b).2 ≠ BitVec.allOnes 64 := by
  intro hmax
  have hhigh : (wmul a b).2.toNat = 2 ^ 64 - 1 := by rw [hmax, BitVec.toNat_allOnes]
  have hprod : a.toNat * b.toNat ≤ (2 ^ 64 - 1) * (2 ^ 64 - 1) :=
    Nat.mul_le_mul (Nat.le_pred_of_lt a.isLt) (Nat.le_pred_of_lt b.isLt)
  have hwhole := wmul_toNat a b
  omega

end

/-- Settles O14: the two halves of the product. -/
theorem wmulIsExactProduct : Obligations.WmulIsExactProduct := by
  unfold Obligations.WmulIsExactProduct
  exact fun _ a b => ⟨_, _, rfl, wmul_toNat a b, wmul_high_ne_allOnes a b⟩

/-! ### ROTL and ROTR -/

section
variable (v : Word) (n : Nat)

/-- Bit `i` after ROTL stood `n mod 64` places lower (R92). -/
theorem rotl_getLsbD {i : Nat} (hi : i < 64) :
    (rotl v n).getLsbD i = v.getLsbD ((i + (64 - n % 64)) % 64) := by
  unfold rotl
  split
  next hzero => congr 1; omega
  next hpos =>
    rw [BitVec.getLsbD_or, BitVec.getLsbD_shiftLeft, BitVec.getLsbD_ushiftRight]
    by_cases hwrap : i < n % 64
    · rw [show (i + (64 - n % 64)) % 64 = 64 - n % 64 + i by omega]
      simp [hwrap]
    · rw [show (i + (64 - n % 64)) % 64 = i - n % 64 by omega,
        BitVec.getLsbD_of_ge v (64 - n % 64 + i) (by omega)]
      simp [hwrap, hi]

/-- Bit `i` after ROTR stood `n mod 64` places higher (R93). -/
theorem rotr_getLsbD {i : Nat} (hi : i < 64) :
    (rotr v n).getLsbD i = v.getLsbD ((i + n % 64) % 64) := by
  unfold rotr
  split
  next hzero => congr 1; omega
  next hpos =>
    rw [BitVec.getLsbD_or, BitVec.getLsbD_shiftLeft, BitVec.getLsbD_ushiftRight]
    by_cases hwrap : i < 64 - n % 64
    · rw [show (i + n % 64) % 64 = n % 64 + i by omega]
      simp [hwrap]
    · rw [show (i + n % 64) % 64 = i - (64 - n % 64) by omega,
        BitVec.getLsbD_of_ge v (n % 64 + i) (by omega)]
      simp [hwrap, hi]

theorem rotl_of_mod_eq_zero (h : n % 64 = 0) : rotl v n = v := if_pos h

theorem rotr_of_mod_eq_zero (h : n % 64 = 0) : rotr v n = v := if_pos h

/-- The two rotations by one count cancel, the places adding up to a multiple of 64 (R93). -/
theorem rotl_rotr : rotl (rotr v n) n = v := by
  refine BitVec.eq_of_getLsbD_eq fun i hi => ?_
  rw [rotl_getLsbD _ _ hi, rotr_getLsbD _ _ (Nat.mod_lt _ (by decide))]
  congr 1
  omega

end

/-- Settles O15: the bit that lands at `k + r` stood at `k`. -/
theorem rotlMovesBits : Obligations.RotlMovesBits := by
  unfold Obligations.RotlMovesBits
  intro s v n
  refine ⟨rotl v n.toNat, rfl, fun k hk => ?_, rotl_of_mod_eq_zero v n.toNat⟩
  rw [rotl_getLsbD _ _ (Nat.mod_lt _ (by decide))]
  congr 1
  omega

/-- Settles O16: where each bit came from, and the cancelling of the two rotations. -/
theorem rotrMovesBits : Obligations.RotrMovesBits := by
  unfold Obligations.RotrMovesBits
  intro s v n
  refine ⟨rotr v n.toNat, rfl, fun k hk => rotr_getLsbD v n.toNat hk,
    rotr_of_mod_eq_zero v n.toNat, ?_⟩
  rw [exec, execRotl, rotl_rotr]
  rfl

/-! ### CHI -/

/-- One output of CHI, bit by bit: `x XOR (not y and z)` (R94). -/
theorem chiOutput_getLsbD (x y z : Word) {k : Nat} (hk : k < 64) :
    (x ^^^ (~~~y &&& z)).getLsbD k = (x.getLsbD k ^^ (!y.getLsbD k && z.getLsbD k)) := by
  simp only [BitVec.getLsbD_xor, BitVec.getLsbD_and, BitVec.getLsbD_not, hk, decide_true,
    Bool.true_and]

/-- Settles O17: the three outputs are one function of the three operands rotated. -/
theorem chiCombinesSimultaneously : Obligations.ChiCombinesSimultaneously := by
  unfold Obligations.ChiCombinesSimultaneously
  exact fun s t u v => ⟨_, _, _, rfl, rfl, fun k hk =>
    ⟨chiOutput_getLsbD t u v hk, chiOutput_getLsbD u v t hk, chiOutput_getLsbD v t u hk⟩⟩

/-! ### RD32 and RD64 -/

section
variable (m : Mem) (a n k : Nat)

/-- The number of a range is the number of its low part and that of its high part (R52). -/
theorem msgLE_add : msgLE m a (n + k) = msgLE m a n + msgLE m (a + n) k * 256 ^ n := by
  induction n generalizing a with
  | zero => simp [msgLE_zero]
  | succ n ih =>
    rw [Nat.succ_add, msgLE_succ, msgLE_succ, ih, pow_succ, Nat.succ_add_eq_add_succ]
    ring

/-- Up to eight bytes fit a word, so nothing of their number is lost. -/
theorem msgWord_toNat (h : n ≤ 8) : (msgWord m a n).toNat = msgLE m a n := by
  have hlt : msgLE m a n < 2 ^ 64 := calc
    msgLE m a n < 256 ^ n := msgLE_lt m a n
    _ ≤ 256 ^ 8 := Nat.pow_le_pow_right (by decide) h
    _ = 2 ^ 64 := by decide
  rw [msgWord, BitVec.toNat_ofNat, Nat.mod_eq_of_lt hlt]

theorem msgLE_four_lt : msgLE m a 4 < 2 ^ 32 := by simpa using msgLE_lt m a 4

variable {m a}

theorem rd32_of_missing {x : Nat} (h : FirstMissing m a (a + 4) x) :
    rd32 m a = .error (.msgFault x) := by
  rw [rd32, memRead_of_missing m a 4 x h]

end

/-- Settles O18: a read of four bytes, held or missing one. -/
theorem rd32ReadsLittleEndian : Obligations.Rd32ReadsLittleEndian := by
  unfold Obligations.Rd32ReadsLittleEndian
  intro s addr
  refine ⟨fun hheld => ?_, fun x hmiss => ?_⟩
  · have hval := msgWord_toNat s.msg addr.toNat 4 (by decide)
    refine ⟨msgWord s.msg addr.toNat 4, ?_, hval, hval ▸ msgLE_four_lt s.msg addr.toNat⟩
    rw [exec, execRd32, rd32_of_holds _ _ hheld, onRead_ok]
    rfl
  · rw [exec, execRd32, rd32_of_missing hmiss, onRead_error]

/-- Settles O19: a read of eight bytes, whose number splits after the fourth. -/
theorem rd64ReadsLittleEndian : Obligations.Rd64ReadsLittleEndian := by
  unfold Obligations.Rd64ReadsLittleEndian
  intro s addr
  refine ⟨fun hheld => ?_, fun x hmiss => ?_⟩
  · have hval := msgWord_toNat s.msg addr.toNat 8 (by decide)
    refine ⟨msgWord s.msg addr.toNat 8, ?_, hval, hval.trans (msgLE_add s.msg addr.toNat 4 4)⟩
    rw [exec, execRd64, rd64_of_holds _ _ hheld, onRead_ok]
    rfl
  · exact onRead_of_firstMissing _ (readsInOrder_rd64 _) hmiss

/-! ### RDSHORT -/

section
variable {m : Mem} {base n : Nat}

/-- Two four-byte numbers side by side fill a word exactly (R97). -/
theorem packFours_toNat (a b : Nat) :
    (BitVec.ofNat 64 (msgLE m a 4 * 2 ^ 32 + msgLE m b 4)).toNat
      = msgLE m a 4 * 2 ^ 32 + msgLE m b 4 := by
  have ha := msgLE_four_lt m a
  have hb := msgLE_four_lt m b
  rw [BitVec.toNat_ofNat, Nat.mod_eq_of_lt (by omega)]

/-- Three bytes at bits 55:48, 31:24 and 7:0 stay inside a word (R97). -/
theorem packBytes_toNat (a b c : Nat) :
    (BitVec.ofNat 64 (msgByte m a * 2 ^ 48 + msgByte m b * 2 ^ 24 + msgByte m c)).toNat
      = msgByte m a * 2 ^ 48 + msgByte m b * 2 ^ 24 + msgByte m c := by
  have ha := msgByte_lt m a
  have hb := msgByte_lt m b
  have hc := msgByte_lt m c
  rw [BitVec.toNat_ofNat, Nat.mod_eq_of_lt (by omega)]

theorem shortWords_of_eq_zero (h : n = 0) : shortWords m base n = (0, 0) := if_pos h

theorem shortWords_of_le_three (h1 : 1 ≤ n) (h3 : n ≤ 3) :
    (shortWords m base n).1.toNat = msgByte m base * 2 ^ 48 + msgByte m (base + n / 2) * 2 ^ 24
      + msgByte m (base + n - 1) ∧ (shortWords m base n).2 = 0 := by
  rw [shortWords, if_neg (by omega), if_pos h3]
  exact ⟨packBytes_toNat _ _ _, rfl⟩

/-- The first word from four bytes on, the same below eight and above. -/
theorem shortWords_fst_of_four_le (h : 4 ≤ n) :
    (shortWords m base n).1.toNat
      = msgLE m base 4 * 2 ^ 32 + msgLE m (base + n - 4) 4 := by
  rw [shortWords, if_neg (by omega), if_neg (by omega), apply_ite Prod.fst, ite_self]
  exact packFours_toNat _ _

theorem shortWords_snd_of_le_seven (h4 : 4 ≤ n) (h7 : n ≤ 7) :
    (shortWords m base n).2 = (shortWords m base n).1 := by
  rw [shortWords, if_neg (by omega), if_neg (by omega), if_pos h7]

theorem shortWords_snd_of_eight_le (h : 8 ≤ n) :
    (shortWords m base n).2.toNat
      = msgLE m (base + 4) 4 * 2 ^ 32 + msgLE m (base + n - 8) 4 := by
  rw [shortWords, if_neg (by omega), if_neg (by omega), if_neg (by omega)]
  exact packFours_toNat _ _

/-- Up to 16 bytes the reads leave no byte of the range out (R57, R97). -/
theorem shortReads_cover (hn : n ≤ 16) {x : Nat} (hlo : base ≤ x) (hhi : x < base + n) :
    ∃ r ∈ shortReads base n, r.1 ≤ x ∧ x < r.1 + r.2 := by
  unfold shortReads
  split_ifs <;>
    simp only [List.mem_cons, List.not_mem_nil, or_false, exists_eq_or_imp, exists_eq_left] <;>
    omega

theorem holds_of_shortReads (hn : n ≤ 16) (h : HoldsReads m (shortReads base n)) :
    Holds m base (base + n) := by
  intro x hlo hhi
  obtain ⟨r, hr, h1, h2⟩ := shortReads_cover hn hlo hhi
  exact h r hr x h1 h2

/-- A range of up to 16 bytes that misses one faults at a missing byte of its own (R57, R171). -/
theorem rdshort_of_not_holds (hn : n ≤ 16) (h : ¬ Holds m base (base + n)) :
    ∃ a, rdshort m base n = .error (.msgFault a) ∧ base ≤ a ∧ a < base + n ∧ m.has a = false := by
  obtain hheld | ⟨a, ha⟩ := holdsReads_or_faultsAt m (shortReads base n)
  · exact absurd (holds_of_shortReads hn hheld) h
  · have herr := rdshort_of_faultsAt m base n a ha
    obtain ⟨x, hx, hown⟩ := rdshort_error m base n _ herr
    cases hx
    exact ⟨a, herr, hown⟩

end

section
variable {s : State} {base n : Word}

theorem exec_rdshort_of_holds (h : Holds s.msg base.toNat (base.toNat + n.toNat)) :
    exec (.rdshort base n) s = .next (s.setUnitOut (.pair (shortWords s.msg base.toNat n.toNat).1
      (shortWords s.msg base.toNat n.toNat).2)) := by
  rw [exec, execRdshort, rdshort_of_holds _ _ _ h, onRead_ok]

theorem exec_rdshort_of_error {a : Nat}
    (h : rdshort s.msg base.toNat n.toNat = .error (.msgFault a)) :
    exec (.rdshort base n) s = .fault (.msgFault a) := by
  rw [exec, execRdshort, h, onRead_error]

end

/-- Settles O20: the words by the length cases of R97, the faults by the reads in order. -/
theorem rdshortPacksBytes : Obligations.RdshortPacksBytes := by
  unfold Obligations.RdshortPacksBytes
  intro s base n hn
  refine ⟨fun hheld => ?_, fun hmiss => ?_, fun a ha => ?_⟩
  · refine ⟨_, _, exec_rdshort_of_holds hheld, fun h0 => ?_, shortWords_of_le_three,
      shortWords_fst_of_four_le, shortWords_snd_of_le_seven, shortWords_snd_of_eight_le⟩
    rw [shortWords_of_eq_zero h0]
    exact ⟨rfl, rfl⟩
  · obtain ⟨a, herr, hown⟩ := rdshort_of_not_holds hn hmiss
    exact ⟨a, exec_rdshort_of_error herr, hown⟩
  · exact exec_rdshort_of_error (rdshort_of_faultsAt _ _ _ _ ha)

end Sys2Proof.Primitives

/-! SUPPORT and PROOFS for the statements of spec/41_short_path.md: what SHORT and the two short
epilogues write, and the 64-bit digest of a short message, in which no mode is left. -/

namespace Sys2Proof.ShortPath

open Sys2Proof.Machine Sys2Proof.Laws Sys2Proof.Grains

/-! ### SHORT -/

/-- The code SHORT leaves in `PHASE`, by `W128` (R73, R152). -/
theorem code_afterShort (op : BitVec 2) :
    (afterShort op).code = if wideOf op then 0b0011#4 else 0b0010#4 := by
  unfold afterShort
  cases wideOf op with
  | false => rfl
  | true => rfl

/-- The lanes `I`, `J` that SHORT gives a message (R110). -/
def shortLanes (k : Config.Consts) (m : Mem) (seed len : Word) : Word × Word :=
  shortMix k seed len (shortWords m 0 len.toNat).1 (shortWords m 0 len.toNat).2

/-- SHORT on a held message writes its lanes and selects the epilogue (R110). -/
theorem shortWith_of_holds (k : Config.Consts) {s : State} (h : Holds s.msg 0 s.len.toNat) :
    shortWith k s = .next ({ s with
      laneI := (shortLanes k s.msg s.seed s.len).1
      laneJ := (shortLanes k s.msg s.seed s.len).2 }.setPhase (afterShort s.op)) := by
  have hread : rdshort s.msg 0 s.len.toNat = .ok (shortWords s.msg 0 s.len.toNat) :=
    rdshort_of_holds s.msg 0 s.len.toNat (by rwa [Nat.zero_add])
  rw [shortWith, hread, onRead_ok]
  rfl

/-- Settles O21: the lanes of the message, and the code of the epilogue that `W128` selects. -/
theorem shortMixesSeedAndLength : Obligations.ShortMixesSeedAndLength := by
  unfold Obligations.ShortMixesSeedAndLength
  intro s hheld
  have hphase := code_afterShort s.op
  rw [exec, execShort, shortWith_of_holds _ hheld, State.setPhase, hphase]
  rfl

/-! ### EPIS64 and EPIS128 -/

/-- EPIS64 writes what its two multiplies make of the lanes and ends the command (R111). -/
theorem exec_epis64 (s : State) :
    exec .epis64 s = .next ({ s with
      digest0 := epis64Mix Config.consts s.laneI s.laneJ }.complete) := rfl

/-- Settles O22: the statement is the epilogue's own equation, in which no mode occurs. -/
theorem epis64TwoMultiplies : Obligations.Epis64TwoMultiplies := by
  unfold Obligations.Epis64TwoMultiplies
  exact exec_epis64

section
variable (ca cb i j : Word)

/-- A round in standard mode: one constant in each multiply, and the lanes kept under the result
(R112). -/
theorem epis128Round_standard :
    epis128Round false ca cb i j =
      (i ^^^ (wmul (i ^^^ ca) j).1 ^^^ (wmul i (j ^^^ cb)).2,
        j ^^^ (wmul i (j ^^^ cb)).1 ^^^ (wmul (i ^^^ ca) j).2) := rfl

/-- A round in fast mode: both constants in the second multiply, the lanes overwritten (R112). -/
theorem epis128Round_fast :
    epis128Round true ca cb i j =
      ((wmul i j).1 ^^^ (wmul (i ^^^ ca) (j ^^^ cb)).2,
        (wmul (i ^^^ ca) (j ^^^ cb)).1 ^^^ (wmul i j).2) := rfl

end

/-- The second round starts from the lanes after the first (R112). -/
theorem epis128Mix_eq (k : Config.Consts) (fast : Bool) (i j : Word) :
    epis128Mix k fast i j =
      epis128Round fast k.c4 k.c5 (epis128Round fast k.c2 k.c3 i j).1
        (epis128Round fast k.c2 k.c3 i j).2 := rfl

/-- EPIS128 writes what its two rounds make of the lanes and ends the command (R112). -/
theorem exec_epis128 (s : State) :
    exec .epis128 s = .next ({ s with
      digest0 := (epis128Mix Config.consts (fastOf s.op) s.laneI s.laneJ).1
      digest1 := (epis128Mix Config.consts (fastOf s.op) s.laneI s.laneJ).2 }.complete) := rfl

/-- Settles O23: the mode selects the form of both rounds. -/
theorem epis128TwoRounds : Obligations.Epis128TwoRounds := by
  unfold Obligations.Epis128TwoRounds
  intro s
  refine ⟨fun hmode => ?_, fun hmode => ?_⟩
  · rw [exec_epis128, epis128Mix_eq, hmode, epis128Round_standard, epis128Round_standard]
    rfl
  · rw [exec_epis128, epis128Mix_eq, hmode, epis128Round_fast, epis128Round_fast]
    rfl

/-! ### The 64-bit digest of a short message -/

/-- A 64-bit command of up to 16 held bytes answers the epilogue of the message's lanes, whichever
mode its code names (R111, R153, R154). -/
theorem digest64_of_short (k : Config.Consts) {s : State} (hs : Ready s) {op : BitVec 2}
    (hop : wideOf op = false) {seed len : Word} (hlen : len.toNat ≤ 16)
    (hheld : Holds s.msg 0 len.toNat) :
    ∃ t, execWith k (commandInstr op seed len) s = .next t ∧
      t.digest0 = epis64Mix k (shortLanes k s.msg seed len).1 (shortLanes k s.msg seed len).2 := by
  have hepis : afterShort op = .epis64 := by simp [afterShort, hop]
  rw [execWith_commandInstr, transaction, start_of_ready _ s hs, andThen_next, if_pos hlen,
    shortPath, shortWith_of_holds k hheld, andThen_next, hepis]
  exact ⟨_, rfl, rfl⟩

/-- Settles O47: the codes 00 and 01 differ in the mode alone, and the digest has none in it. -/
theorem shortDigestIgnoresMode : Obligations.ShortDigestIgnoresMode := by
  unfold Obligations.ShortDigestIgnoresMode
  intro s seed len hlen hs hheld
  obtain ⟨t, ht, hdigest⟩ :=
    digest64_of_short Config.consts hs (op := 0b00#2) rfl (seed := seed) hlen hheld
  obtain ⟨t', ht', hdigest'⟩ :=
    digest64_of_short Config.consts hs (op := 0b01#2) rfl (seed := seed) hlen hheld
  exact ⟨t, t', ht, ht', hdigest.trans hdigest'.symm⟩

end Sys2Proof.ShortPath

/-! SUPPORT and PROOFS for the statements of spec/42_tower.md: what each phase of the
block-processor tower writes, and how the block stages consume the message. -/

namespace Sys2Proof.Tower

open Sys2Proof.Machine Sys2Proof.Laws Sys2Proof.Grains Sys2Proof.Programs

/-! ### The words of a block -/

/-- Word `j` of the block at `p`. -/
def blockWord (m : Mem) (p j : Nat) : Word := msgWord m (p + 8 * j) 8

/-- A fold of steps that all succeed is the fold of their results. -/
theorem foldlM_eq_ok {α β : Type} {f : β → α → Except Fault β} {g : β → α → β} {l : List α}
    (h : ∀ x ∈ l, ∀ acc, f acc x = .ok (g acc x)) (acc : β) :
    l.foldlM f acc = .ok (l.foldl g acc) := by
  rw [foldlM_congr h]
  exact List.foldlM_pure

section
variable {m : Mem} {p n : Nat}

theorem rd64_blockWord {j : Nat} (h : Holds m p (p + n)) (hj : 8 * j + 8 ≤ n) :
    rd64 m (p + 8 * j) = .ok (blockWord m p j) :=
  rd64_of_holds m (p + 8 * j) fun x h1 h2 => h x (by omega) (by omega)

/-- The two words of pair `k` in BLK96 and BLK48 (R121, R123). -/
theorem rd64_pairWords {k : Nat} (h : Holds m p (p + n)) (hk : 16 * k + 16 ≤ n) :
    rd64 m (p + 16 * k) = .ok (blockWord m p (2 * k)) ∧
      rd64 m (p + 16 * k + 8) = .ok (blockWord m p (2 * k + 1)) := by
  have h0 := rd64_blockWord (j := 2 * k) h (by omega)
  have h1 := rd64_blockWord (j := 2 * k + 1) h (by omega)
  rw [show p + 8 * (2 * k) = p + 16 * k by omega] at h0
  rw [show p + 8 * (2 * k + 1) = p + 16 * k + 8 by omega] at h1
  exact ⟨h0, h1⟩

end

/-! ### INIT and RCLOSE -/

/-- The seed meets lanes 3 to 5 lane by lane (R120). -/
theorem initLanes_eq (c : Config.Consts) (seed len : Word) :
    initLanes c seed len =
      { s0 := c.c0 + seed, s1 := c.c1 - seed, s2 := c.c2 ^^^ seed
        s3 := if len.toNat ≥ 96 then c.c3 + seed else c.c3
        s4 := if len.toNat ≥ 96 then c.c4 - seed else c.c4
        s5 := if len.toNat ≥ 96 then c.c5 ^^^ seed else c.c5 } := by
  unfold initLanes
  split_ifs <;> rfl

/-- The code INIT leaves in `PHASE`, by the length (R73, R152). -/
theorem code_afterInit (len : Word) :
    (afterInit len).code = if len.toNat ≥ 96 then 0b0101#4 else 0b0111#4 := apply_ite _ _ _ _

/-- Settles O24: the lanes one by one, and the code of the phase that the length selects. -/
theorem initLoadsLanes : Obligations.InitLoadsLanes := by
  unfold Obligations.InitLoadsLanes
  intro s
  have hlanes := initLanes_eq Config.consts s.seed s.len
  have hphase := code_afterInit s.len
  rw [exec, execInit, initWith, State.setPhase, hlanes, hphase]

/-- Settles O26: the statement is the phase's own equation, in which no mode occurs. -/
theorem rcloseXorsRing : Obligations.RcloseXorsRing := by
  unfold Obligations.RcloseXorsRing
  exact fun _ => rfl

/-! ### BLK96 -/

/-- A step of BLK96 once its two words are read (R121). -/
def chainStep (fast : Bool) (w : Nat → Word) (acc : Lanes × Word) (x : Nat × Lane × Lane) :
    Lanes × Word :=
  let l := (acc.1.xor x.2.1 (w (2 * x.1))).xor x.2.2 (w (2 * x.1 + 1))
  let m := wmul (l.get x.2.1) (l.get x.2.2)
  (l.set x.2.1 (if fast then acc.2 ^^^ m.2 else l.get x.2.1 + (acc.2 ^^^ m.2)), m.1)

theorem blk96Mix_of_holds (fast : Bool) {m : Mem} {p : Nat} (h : Holds m p (p + 96)) (l : Lanes)
    (ring : Word) :
    blk96Mix fast m p l ring =
      .ok (ringPairs.foldl (chainStep fast (blockWord m p)) (l, ring)) := by
  have hrange : ∀ x ∈ ringPairs, x.1 ≤ 5 := by decide
  refine foldlM_eq_ok (fun x hx acc => ?_) _
  have hk := hrange x hx
  obtain ⟨h0, h1⟩ := rd64_pairWords (k := x.1) h (by omega)
  rw [blk96Step, h0, bind_ok, h1]
  rfl

/-- The code BLK96 leaves in `PHASE`, by the bytes left (R73, R152). -/
theorem code_afterBlk96 (q : Word) :
    (afterBlk96 q).code = if q.toNat ≥ 96 then 0b0101#4 else 0b0110#4 := apply_ite _ _ _ _

/-- Settles O25: the six steps one after the other on the words of the block. -/
theorem blk96ChainsSixSteps : Obligations.Blk96ChainsSixSteps := by
  unfold Obligations.Blk96ChainsSixSteps
  intro s hheld
  have hphase := code_afterBlk96 (s.q - 96)
  rw [exec, execBlk96, blk96Mix_of_holds _ hheld, onRead_ok]
  dsimp only
  rw [State.setPhase, hphase]
  rfl

/-! ### BLK48 and BLK24 -/

/-- The fold of a pair, each lane by itself: the low half onto the first, the high half onto the
second (R123, R124). -/
def foldLanes (fast : Bool) (l : Lanes) (a b : Lane) : Lanes :=
  let m := wmul (l.get a) (l.get b)
  (l.set a (foldLane fast (l.get a) m.1)).set b (foldLane fast (l.get b) m.2)

/-- Folding the first lane of a pair leaves the second for its own fold. -/
theorem foldPair_of_ne (fast : Bool) (l : Lanes) {a b : Lane} (h : a ≠ b) :
    foldPair fast l a b = foldLanes fast l a b := by
  cases fast with
  | true => rfl
  | false =>
    have hxor (v w : Word) : (l.xor a v).xor b w = (l.xor a v).set b (l.get b ^^^ w) := by
      rw [Lanes.xor, get_xor_other l a b v h]
    exact hxor _ _

/-- The lane pairs of BLK48 (R123). -/
def sidePairs : List (Nat × Lane × Lane) := [(0, .l0, .l1), (1, .l2, .l3), (2, .l4, .l5)]

/-- The lane pairs of BLK24 (R124). -/
def crossPairs : List (Nat × Lane × Lane) := [(0, .l0, .l3), (1, .l1, .l4), (2, .l2, .l5)]

/-- A step of BLK48 once its two words are read (R123). -/
def sideStep (fast : Bool) (w : Nat → Word) (l : Lanes) (x : Nat × Lane × Lane) : Lanes :=
  foldLanes fast ((l.xor x.2.1 (w (2 * x.1))).xor x.2.2 (w (2 * x.1 + 1))) x.2.1 x.2.2

/-- A step of BLK24 once its word is read (R124). -/
def crossStep (fast : Bool) (w : Nat → Word) (l : Lanes) (x : Nat × Lane × Lane) : Lanes :=
  foldLanes fast (l.xor x.2.2 (w x.1)) x.2.1 x.2.2

section
variable {m : Mem} {p : Nat} (fast : Bool) (l : Lanes)

theorem blk48Mix_of_holds (h : Holds m p (p + 48)) :
    blk48Mix fast m p l = .ok (sidePairs.foldl (sideStep fast (blockWord m p)) l) := by
  have hpairs : ∀ x ∈ sidePairs, x.1 ≤ 2 ∧ x.2.1 ≠ x.2.2 := by decide
  refine foldlM_eq_ok (fun x hx acc => ?_) _
  obtain ⟨hk, hne⟩ := hpairs x hx
  obtain ⟨h0, h1⟩ := rd64_pairWords (k := x.1) h (by omega)
  rw [blk48Step, h0, bind_ok, h1, bind_ok, foldPair_of_ne _ _ hne]
  rfl

theorem blk24Mix_of_holds (h : Holds m p (p + 24)) :
    blk24Mix fast m p l = .ok (crossPairs.foldl (crossStep fast (blockWord m p)) l) := by
  have hpairs : ∀ x ∈ crossPairs, x.1 ≤ 2 ∧ x.2.1 ≠ x.2.2 := by decide
  refine foldlM_eq_ok (fun x hx acc => ?_) _
  obtain ⟨hk, hne⟩ := hpairs x hx
  rw [blk24Step, rd64_blockWord h (by omega), bind_ok, foldPair_of_ne _ _ hne]
  rfl

end

/-- Settles O27: three folds on the words of the block, or the skip. -/
theorem blk48FoldsPairs : Obligations.Blk48FoldsPairs := by
  unfold Obligations.Blk48FoldsPairs
  intro s
  refine ⟨fun hq hheld => ?_, fun hq => if_neg (Nat.not_le.2 hq)⟩
  rw [exec, execBlk48, if_pos hq, blk48Mix_of_holds _ _ hheld, onRead_ok]
  rfl

/-- Settles O28: three crosswise folds on the words of the block, or the skip. -/
theorem blk24FoldsPairs : Obligations.Blk24FoldsPairs := by
  unfold Obligations.Blk24FoldsPairs
  intro s
  refine ⟨fun hq hheld => ?_, fun hq => if_neg (Nat.not_le.2 hq)⟩
  rw [exec, execBlk24, if_pos hq, blk24Mix_of_holds _ _ hheld, onRead_ok]
  rfl

/-! ### TAIL -/

/-- The raw lanes of TAIL: the two short words up to 16 bytes, else three words of which the last
ends the message (R125). -/
def tailWords (m : Mem) (p q : Nat) : Word × Word × Word :=
  (if q ≤ 16 then (shortWords m p q).1 else msgWord m p 8,
    if q ≤ 16 then (shortWords m p q).2 else msgWord m (p + 8) 8,
    if q ≤ 16 then 0 else msgWord m (p + q - 8) 8)

theorem tailRead_of_holds {m : Mem} {p q : Nat} (h : Holds m p (p + q)) :
    tailRead m p q = .ok (tailWords m p q) := by
  unfold tailRead tailWords
  by_cases hq : q ≤ 16
  · simp only [if_pos hq, rdshort_of_holds m p q h]
    rfl
  · have hword : ∀ a, p ≤ a → a + 8 ≤ p + q → rd64 m a = .ok (msgWord m a 8) := fun a hlo hhi =>
      rd64_of_holds m a fun x h1 h2 => h x (by omega) (by omega)
    have h0 := hword p (by omega) (by omega)
    have h1 := hword (p + 8) (by omega) (by omega)
    have h2 := hword (p + q - 8) (by omega) (by omega)
    simp only [if_neg hq, h0, h1, h2]
    rfl

/-- Settles O29: the raw lanes of the message, mixed with the lanes as the total length selects. -/
theorem tailFoldsRest : Obligations.TailFoldsRest := by
  unfold Obligations.TailFoldsRest
  intro s hheld
  have hread := tailRead_of_holds hheld
  refine ⟨fun hlen => ?_, fun hlen => ?_⟩
  · rw [exec, execTail, hread, onRead_ok]
    exact if_pos hlen
  · rw [exec, execTail, hread, onRead_ok]
    exact if_neg (Nat.not_le.2 hlen)

/-! ### What the stages consume -/

/-- `n` steps of the machine after START with `c` is presented on `b` lead to a state of `Q`. -/
def Reaches (c : Command) (b : State) (n : Nat) (Q : State → Prop) : Prop :=
  ∃ u, runSteps n (b.presentStart c) = .next u ∧ Q u

section
variable {c : Command} {b u : State} {n m : Nat} {P Q : State → Prop}

theorem Reaches.mono (h : Reaches c b n P) (hPQ : ∀ u, P u → Q u) : Reaches c b n Q := by
  obtain ⟨u, hu, hP⟩ := h
  exact ⟨u, hu, hPQ u hP⟩

/-- A stage goes on from where the sequencer stands, the message being held. -/
theorem Reaches.stage {f : State → Result} (h : Reaches c b n P) (hheld : Held c b)
    (hf : Stage Config.consts c b m f P Q) : Reaches c b (n + m) Q := by
  obtain ⟨u, hu, hP⟩ := h
  obtain ⟨hrun, hans⟩ := hf u hP
  obtain ⟨t, ht⟩ := hans.2 hheld
  refine ⟨t, ?_, hans.1 t ht⟩
  rw [runSteps_add, hu, andThen_next, runSteps_eq_runOf, hrun, ht]

/-- START on more than 16 bytes leads to INIT (R151). -/
theorem reaches_init (hb : Ready b) (hlen : 16 < c.len.toNat) :
    Reaches c b 1 (InPhase c b .init) := by
  have hans : Answers True (start c b) (InPhase c b (startPhase c.len)) := start_answers fun _ => hb
  obtain ⟨t, ht⟩ := hans.2 trivial
  have hlong : startPhase c.len = .init := if_neg (Nat.not_le.2 hlen)
  refine ⟨t, ?_, hlong ▸ hans.1 t ht⟩
  rw [runSteps_eq_runOf, runOf_one, stepWith_presentStart, ht]

/-- After INIT each step takes one of the blocks of 96 bytes (R121, R126). -/
theorem reaches_blocksLeft (hb : Ready b) (hlen : 16 < c.len.toNat) (hheld : Held c b)
    (hm : m ≤ c.len.toNat / 96) :
    Reaches c b (2 + m) (BlocksLeft c b (c.len.toNat / 96 - m)) := by
  induction m with
  | zero =>
    exact (reaches_init hb hlen).stage hheld
      (Stage.of_inPhase (x := .init) (by decide) initWith_answers)
  | succ m ih =>
    have hleft : c.len.toNat / 96 - m = c.len.toNat / 96 - (m + 1) + 1 := by omega
    have hone : Stage Config.consts c b 1 execBlk96
        (BlocksLeft c b (c.len.toNat / 96 - (m + 1) + 1))
        (BlocksLeft c b (c.len.toNat / 96 - (m + 1))) :=
      Stage.of_phase (x := .blk96) (by decide) (fun s hs => hs.1) fun s hs => execBlk96_answers hs
    exact (hleft ▸ ih (by omega)).stage hheld hone

/-- The blocks taken, and RCLOSE if there were any, the sequencer stands at BLK48 (R152). -/
theorem reaches_blk48 (hb : Ready b) (hlen : 16 < c.len.toNat) (hheld : Held c b) :
    Reaches c b (2 + c.len.toNat / 96 + if c.len.toNat ≥ 96 then 1 else 0)
      (InPhase c b .blk48) := by
  have hnone := reaches_blocksLeft hb hlen hheld (Nat.le_refl (c.len.toNat / 96))
  rw [Nat.sub_self] at hnone
  exact (hnone.mono fun u hu => hu.1).stage hheld stage_close

/-- With `n - m` of `n` blocks of 96 bytes left, `m` of them are consumed (R126). -/
theorem consumed_of_blocksLeft (hm : m < c.len.toNat / 96)
    (h : BlocksLeft c b (c.len.toNat / 96 - m) u) :
    u.phase = Phase.blk96.code ∧ u.p.toNat = 96 * m ∧ u.q.toNat = c.len.toNat - 96 * m := by
  obtain ⟨hin, hleft⟩ := h
  rw [if_neg (by omega)] at hin
  obtain ⟨-, hp, hpq⟩ := hin.inv
  rw [hin.len_eq] at hpq
  exact ⟨hin.phase, by omega, by omega⟩

end

/-- Settles O49: each stage finds what the invariant of its phase says. -/
theorem stagesConsumeByLength : Obligations.StagesConsumeByLength := by
  unfold Obligations.StagesConsumeByLength
  intro s c hs hlen hheld
  have h48 := reaches_blk48 hs hlen hheld
  have h24 := h48.stage hheld (Stage.of_inPhase (x := .blk48) (by decide) execBlk48_answers)
  have htail := h24.stage hheld (Stage.of_inPhase (x := .blk24) (by decide) execBlk24_answers)
  refine ⟨fun m hm => ?_, h48.mono fun u hu => ?_, h24.mono fun u hu => ?_,
    htail.mono fun u hu => ?_⟩
  · exact (reaches_blocksLeft hs hlen hheld hm.le).mono fun u hu => consumed_of_blocksLeft hm hu
  all_goals
    obtain ⟨-, hq, hpq⟩ := hu.inv
    rw [hu.len_eq] at hq hpq
    exact ⟨hu.phase, hq, hpq⟩

end Sys2Proof.Tower

/-! SUPPORT and PROOFS for the statements of spec/43_finalization.md: the finalization mix, the two long
epilogues, and the constants that each phase reads. -/

namespace Sys2Proof.Finalization

open Sys2Proof.Machine Sys2Proof.ShortPath

/-! ### The ring round -/

section
variable (x y z i j k : Word)

/-- In standard mode a salt goes into the first operand of each multiply (R140, R141). -/
theorem ringHalves_standard :
    ringHalves false x y z i j k =
      { lo0 := (wmul (i ^^^ x) j).1, hi0 := (wmul (i ^^^ x) j).2
        lo1 := (wmul (j ^^^ y) k).1, hi1 := (wmul (j ^^^ y) k).2
        lo2 := (wmul (k ^^^ z) i).1, hi2 := (wmul (k ^^^ z) i).2 } := rfl

/-- In fast mode no salt is read (R140, R141). -/
theorem ringHalves_fast :
    ringHalves true x y z i j k =
      { lo0 := (wmul i j).1, hi0 := (wmul i j).2
        lo1 := (wmul j k).1, hi1 := (wmul j k).2
        lo2 := (wmul k i).1, hi2 := (wmul k i).2 } := rfl

/-- The round in standard mode accumulates onto the lanes (R140). -/
theorem ringRound_standard :
    ringRound false x y z i j k =
      (i ^^^ ((wmul (i ^^^ x) j).1 ^^^ (wmul (k ^^^ z) i).2),
        j ^^^ ((wmul (j ^^^ y) k).1 ^^^ (wmul (i ^^^ x) j).2),
        k ^^^ ((wmul (k ^^^ z) i).1 ^^^ (wmul (j ^^^ y) k).2)) := by
  rw [ringRound, ringHalves_standard]
  rfl

/-- The round in fast mode overwrites the lanes (R140). -/
theorem ringRound_fast :
    ringRound true x y z i j k =
      ((wmul i j).1 ^^^ (wmul k i).2, (wmul j k).1 ^^^ (wmul i j).2,
        (wmul k i).1 ^^^ (wmul j k).2) := by
  rw [ringRound, ringHalves_fast]
  rfl

end

/-! ### LAYERF -/

/-- The code LAYERF leaves in `PHASE`, by `W128` (R73, R152). -/
theorem code_afterLayerf (op : BitVec 2) :
    (afterLayerf op).code = if wideOf op then 0b1100#4 else 0b1011#4 := apply_ite _ _ _ _

/-- LAYERF writes its three lanes together and selects the epilogue (R140). -/
theorem exec_layerf (s : State) :
    exec .layerf s = .next ({ s with
      laneI := (layerfMix Config.consts (fastOf s.op) s.len s.laneI s.laneJ s.laneK).1
      laneJ := (layerfMix Config.consts (fastOf s.op) s.len s.laneI s.laneJ s.laneK).2.1
      laneK := (layerfMix Config.consts (fastOf s.op) s.len s.laneI s.laneJ s.laneK).2.2 }.setPhase
        (afterLayerf s.op)) := rfl

/-- The round of LAYERF starts from the lanes after CHI, the rotations and the length (R140). -/
theorem layerfMix_eq (c : Config.Consts) (fast : Bool) (len i j k : Word) :
    layerfMix c fast len i j k =
      ringRound fast c.c3 c.c4 c.c5 (rotl (chi i j k).1 (len.toNat % 64))
        (rotr (chi i j k).2.1 (len.toNat % 64)) ((chi i j k).2.2 ^^^ len) := rfl

/-- Settles O30: the mode selects the form of the ring round, `W128` the code of the epilogue. -/
theorem layerfRingRound : Obligations.LayerfRingRound := by
  unfold Obligations.LayerfRingRound
  intro s
  have hphase := code_afterLayerf s.op
  refine ⟨fun hmode => ?_, fun hmode => ?_⟩
  · rw [exec_layerf, State.setPhase, hphase, layerfMix_eq, hmode, ringRound_standard]
  · rw [exec_layerf, State.setPhase, hphase, layerfMix_eq, hmode, ringRound_fast]

/-! ### EPIL64 and EPIL128 -/

/-- EPIL64 writes one digest word and ends the command (R141). -/
theorem exec_epil64 (s : State) :
    exec .epil64 s = .next ({ s with
      digest0 := epil64Mix Config.consts (fastOf s.op) s.laneI s.laneJ s.laneK }.complete) := rfl

/-- The sum is taken of the lanes after the round (R141). -/
theorem epil64Mix_eq (c : Config.Consts) (fast : Bool) (i j k : Word) :
    epil64Mix c fast i j k =
      (ringRound fast c.c0 c.c1 c.c2 i j k).1 + (ringRound fast c.c0 c.c1 c.c2 i j k).2.1 +
        (ringRound fast c.c0 c.c1 c.c2 i j k).2.2 := rfl

/-- Settles O31: the mode selects the form of the ring round that is summed. -/
theorem epil64SumsRound : Obligations.Epil64SumsRound := by
  unfold Obligations.Epil64SumsRound
  intro s
  refine ⟨fun hmode => ?_, fun hmode => ?_⟩
  · rw [exec_epil64, epil64Mix_eq, hmode, ringRound_standard]
    rfl
  · rw [exec_epil64, epil64Mix_eq, hmode, ringRound_fast]
    rfl

/-- EPIL128 writes two digest words and ends the command (R142). -/
theorem exec_epil128 (s : State) :
    exec .epil128 s = .next ({ s with
      digest0 := (epil128Mix Config.consts (fastOf s.op) s.laneI s.laneJ s.laneK).1
      digest1 := (epil128Mix Config.consts (fastOf s.op) s.laneI s.laneJ s.laneK).2 }.complete) := rfl

/-- Settles O32: the mode selects the salts of the halves and whether the lanes stay under them. -/
theorem epil128Recombines : Obligations.Epil128Recombines := by
  unfold Obligations.Epil128Recombines
  intro s
  refine ⟨fun hmode => ?_, fun hmode => ?_⟩
  · rw [exec_epil128, epil128Mix, hmode, ringHalves_standard]
    rfl
  · rw [exec_epil128, epil128Mix, hmode, ringHalves_fast]
    rfl

/-! ### The constants each phase reads -/

section
variable {k k' : Config.Consts}

/-- SHORT salts its one multiply with `C[0]` and `C[1]` (R110, R143). -/
theorem shortMix_congr (h0 : k.c0 = k'.c0) (h1 : k.c1 = k'.c1) : shortMix k = shortMix k' := by
  funext seed len i j
  rw [shortMix, h0, h1]
  rfl

/-- EPIS64 reads `C[2]` to `C[5]` (R111, R143). -/
theorem epis64Mix_congr (h2 : k.c2 = k'.c2) (h3 : k.c3 = k'.c3) (h4 : k.c4 = k'.c4)
    (h5 : k.c5 = k'.c5) : epis64Mix k = epis64Mix k' := by
  funext i j
  rw [epis64Mix, h2, h3, h4, h5]
  rfl

/-- EPIS128 reads `C[2]` to `C[5]`, two in each round (R112, R143). -/
theorem epis128Mix_congr (h2 : k.c2 = k'.c2) (h3 : k.c3 = k'.c3) (h4 : k.c4 = k'.c4)
    (h5 : k.c5 = k'.c5) : epis128Mix k = epis128Mix k' := by
  funext fast i j
  rw [epis128Mix_eq, epis128Mix_eq, h2, h3, h4, h5]

section
variable {fast : Bool} {x y z x' y' z' : Word}

/-- The salts reach the multiplies of a ring round in standard mode only (R143). -/
theorem ringHalves_congr (h : fast = true ∨ x = x' ∧ y = y' ∧ z = z') :
    ringHalves fast x y z = ringHalves fast x' y' z' := by
  obtain rfl | ⟨rfl, rfl, rfl⟩ := h
  · funext i j k
    rw [ringHalves_fast, ringHalves_fast]
  · rfl

theorem ringRound_congr (h : fast = true ∨ x = x' ∧ y = y' ∧ z = z') :
    ringRound fast x y z = ringRound fast x' y' z' := by
  funext i j k
  rw [ringRound, ringRound, ringHalves_congr h]

end

variable {s : State}

theorem layerfWith_congr (h : fastOf s.op = true ∨ k.c3 = k'.c3 ∧ k.c4 = k'.c4 ∧ k.c5 = k'.c5) :
    layerfWith k s = layerfWith k' s := by
  rw [layerfWith, layerfWith, layerfMix_eq, layerfMix_eq, ringRound_congr h]

theorem epil64With_congr (h : fastOf s.op = true ∨ k.c0 = k'.c0 ∧ k.c1 = k'.c1 ∧ k.c2 = k'.c2) :
    epil64With k s = epil64With k' s := by
  rw [epil64With, epil64With, epil64Mix_eq, epil64Mix_eq, ringRound_congr h]

theorem epil128With_congr (h : fastOf s.op = true ∨ k.c0 = k'.c0 ∧ k.c1 = k'.c1 ∧ k.c2 = k'.c2) :
    epil128With k s = epil128With k' s := by
  rw [epil128With, epil128With, epil128Mix, epil128Mix, ringHalves_congr h]

end

/-- Settles O56: each row of the table says which constants reach the phase's mix; the block phases
take no constants at all. -/
theorem constantsReadByPhase : Obligations.ConstantsReadByPhase := by
  unfold Obligations.ConstantsReadByPhase
  intro k k' s
  refine ⟨fun h0 h1 => ?short, fun h2 h3 h4 h5 => ⟨?epis64, ?epis128⟩,
    ⟨rfl, rfl, rfl, rfl, rfl⟩, layerfWith_congr, fun h => ⟨epil64With_congr h, epil128With_congr h⟩⟩
  case short =>
    rw [execWith, shortWith, shortMix_congr h0 h1]
    rfl
  case epis64 =>
    rw [execWith, epis64With, epis64Mix_congr h2 h3 h4 h5]
    rfl
  case epis128 =>
    rw [execWith, epis128With, epis128Mix_congr h2 h3 h4 h5]
    rfl

end Sys2Proof.Finalization

/-! SUPPORT and PROOFS for the statements of spec/44_dispatcher.md: START and IDLE, the sequencing
table, the placing of bytes, and the four commands at both grains. -/

namespace Sys2Proof.Dispatcher

open Sys2Proof.Machine Sys2Proof.Laws Sys2Proof.Grains Sys2Proof.Registers Sys2Proof.Programs
  Sys2Proof.ShortPath Sys2Proof.Tower Sys2Proof.Finalization

/-! ### START and IDLE -/

/-- The code START leaves in `PHASE`, by the length (R73, R151). -/
theorem code_startPhase (len : Word) :
    (startPhase len).code = if len.toNat ≤ 16 then 0b0001#4 else 0b0100#4 := apply_ite _ _ _ _

theorem start_of_busy (c : Command) {s : State} (hb : s.busy = true) :
    start c s = .refused .startWhileBusy := if_pos hb

/-- Settles O10: IDLE hands START on; the free values are those of the two digest registers. -/
theorem startLatchesCommand : Obligations.StartLatchesCommand := by
  unfold Obligations.StartLatchesCommand
  intro s c hr
  have hidle : exec .idle s = start c s := execIdle_of_start hr
  refine ⟨fun hs => ?_, fun hb => hidle.trans (start_of_busy c hb)⟩
  rw [hidle, start_of_ready c s hs, State.setPhase, code_startPhase]
  exact ⟨_, _, _, rfl⟩

/-- Settles O11: without START the phase writes its own code and nothing else. -/
theorem idleWaits : Obligations.IdleWaits := by
  unfold Obligations.IdleWaits
  exact fun _ hr => execIdle_of_no_start hr

/-- Writing the code that `PHASE` already holds changes nothing. -/
theorem setPhase_eq_self {s : State} {x : Phase} (hp : s.phase = x.code) : s.setPhase x = s := by
  rw [State.setPhase, ← hp]

/-- A quiet step in IDLE answers the state it started from (R159). -/
theorem step_of_quiet_idle {s : State} (hq : Quiet s) (hp : s.phase = Phase.idle.code) :
    step s = .next s := by
  obtain ⟨hr, hu⟩ := hq
  have hwait : exec Phase.idle.instr s = .next (s.setPhase .idle) :=
    execIdle_of_no_start fun c hc => by rw [hr] at hc; cases hc
  rw [step_phase s .idle hr hp fun _ => hu, hwait, setPhase_eq_self hp]

/-- Settles O12: by induction on the number of steps, each of which leaves the state as it was. -/
theorem idleHoldsEverything : Obligations.IdleHoldsEverything := by
  unfold Obligations.IdleHoldsEverything
  intro s k hq hp
  induction k with
  | zero => rfl
  | succ k ih => rw [runSteps_succ, step_of_quiet_idle hq hp, andThen_next, ih]

/-! ### The sequencing table -/

/-- The successor of a phase that ends in `t` (R152), IDLE being without START. -/
def successor (t : State) : Phase → Phase
  | .idle => .idle
  | .short => afterShort t.op
  | .epis64 | .epis128 | .epil64 | .epil128 => .idle
  | .init => afterInit t.len
  | .blk96 => afterBlk96 t.q
  | .rclose => .blk48
  | .blk48 => .blk24
  | .blk24 => .tail
  | .tail => .layerf
  | .layerf => afterLayerf t.op

section
variable {s t : State}

/-- A phase that consumes a block where there is one goes to the same phase either way (R123, R124). -/
theorem phase_of_optional_block {α : Type} {d : Prop} [Decidable d] {r : Except Fault α}
    {f : α → State} {y : Phase}
    (h : (if d then onRead r fun v => .next ((f v).setPhase y) else .next (s.setPhase y)) =
      .next t) : t.phase = y.code := by
  split at h
  · obtain ⟨v, -, hv⟩ := onRead_next h
    cases hv
    rfl
  · cases h
    rfl

theorem execTail_phase (h : execTail s = .next t) : t.phase = Phase.layerf.code := by
  obtain ⟨v, -, hv⟩ := onRead_next h
  dsimp only at hv
  split at hv
  · cases hv
    rfl
  · cases hv
    rfl

/-- A phase that answers a next state leaves the code of its successor there. -/
theorem phase_of_next {x : Phase} (hidle : x = .idle → ∀ c, s.request ≠ .start c)
    (h : exec x.instr s = .next t) : t.phase = (successor t x).code := by
  cases x with
  | idle =>
    have hwait : exec Phase.idle.instr s = .next (s.setPhase .idle) :=
      execIdle_of_no_start (hidle rfl)
    rw [hwait] at h
    cases h
    rfl
  | epis64 | epis128 | epil64 | epil128 | init | rclose | layerf => cases h; rfl
  | short | blk96 =>
    obtain ⟨v, -, hv⟩ := onRead_next h
    cases hv
    rfl
  | blk48 | blk24 => exact phase_of_optional_block h
  | tail => exact execTail_phase h

/-- IDLE with START leaves the code of the path that the latched length selects (R151). -/
theorem phase_of_start {c : Command} (h : start c s = .next t) :
    t.phase = (startPhase t.len).code := by
  rw [start_of_ready c s (start_next h)] at h
  cases h
  rfl

end

/-- Settles O7: the successors row by row, with their codes. -/
theorem sequencingTable : Obligations.SequencingTable := by
  unfold Obligations.SequencingTable
  intro s t
  have hrow : ∀ x : Phase, x ≠ .idle → exec x.instr s = .next t →
      t.phase = (successor t x).code := fun x hx => phase_of_next fun h => absurd h hx
  refine ⟨fun h hr => phase_of_next (x := .idle) (fun _ => hr) h, fun c h hr => ?start,
    fun h => ?short, hrow .epis64 (by decide), hrow .epis128 (by decide), fun h => ?init,
    fun h => ?blk96, hrow .rclose (by decide), hrow .blk48 (by decide), hrow .blk24 (by decide),
    hrow .tail (by decide), fun h => ?layerf, hrow .epil64 (by decide), hrow .epil128 (by decide)⟩
  case start =>
    rw [← code_startPhase]
    exact phase_of_start (c := c) ((execIdle_of_start hr).symm.trans h)
  case short =>
    rw [← code_afterShort]
    exact hrow .short (by decide) h
  case init =>
    rw [← code_afterInit]
    exact hrow .init (by decide) h
  case blk96 =>
    rw [← code_afterBlk96]
    exact hrow .blk96 (by decide) h
  case layerf =>
    rw [← code_afterLayerf]
    exact hrow .layerf (by decide) h

/-! ### The placing of bytes -/

/-- Settles O35: the step writes the bytes, and each of them reads back. -/
theorem hostPlacesBytes : Obligations.HostPlacesBytes := by
  unfold Obligations.HostPlacesBytes
  intro s base bs hr hs
  refine ⟨_, (step_place s base bs hr).trans (hostPlace_of_ready base bs hs), rfl,
    fun k hk h64 => ?_, fun x hx => ?_⟩
  · rw [retire_msg, byte?_writes, if_pos (by omega), Nat.add_sub_cancel_left]
  · rw [retire_msg, byte?_writes, if_neg (by omega)]

/-! ### Commands as transactions -/

/-- Settles O44: each command is `commandInstr` at its code, and ends with its context kept. -/
theorem commandsComplete : Obligations.CommandsComplete := by
  unfold Obligations.CommandsComplete
  intro s seed len hs hheld
  have hends : ∀ op, ∃ t, exec (commandInstr op seed len) s = .next t ∧
      Completed ⟨op, seed, len⟩ t ∧ t.msg = s.msg ∧ t.unitIn = s.unitIn ∧
      t.unitOut = s.unitOut ∧ t.request = .none := by
    intro op
    obtain ⟨t, ht, hctx, hcompleted⟩ := transaction_ends Config.consts op seed len s hs hheld
    rw [← exec_eq_execWith] at ht
    exact ⟨t, ht, hcompleted, congrArg Context.msg hctx, congrArg Context.unitIn hctx,
      congrArg Context.unitOut hctx, congrArg Context.request hctx⟩
  exact ⟨hends 0b00#2, hends 0b01#2, hends 0b10#2, hends 0b11#2⟩

/-- What is alike to a fault is that fault. -/
theorem eq_of_alike_fault {R : State → State → Prop} {e : Fault} {r' : Result}
    (h : Alike R (.fault e) r') : r' = .fault e := by
  cases h
  rfl

/-- Settles O46: the command stays in lockstep on the two engines. -/
theorem digestDependsOnInputsOnly : Obligations.DigestDependsOnInputsOnly := by
  unfold Obligations.DigestDependsOnInputsOnly
  intro op seed len s s' hs hs' hm
  have halike := command_alike Config.consts op seed len hs hs' hm
  rw [← exec_eq_execWith, ← exec_eq_execWith] at halike
  refine ⟨fun t ht => ?_, fun e he => ?_⟩
  · rw [ht] at halike
    obtain ⟨t', ht', hboth⟩ := halike.of_next
    exact ⟨t', ht', hboth.same.digest0.symm, fun hw => (hboth.same.digest1 hw).symm⟩
  · rw [he] at halike
    exact eq_of_alike_fault halike

/-! ### Commands at the phase grain -/

theorem stepCount_of_short {len : Word} (h : len.toNat ≤ 16) : stepCount len = 3 := if_pos h

theorem stepCount_of_long {len : Word} (h : 16 < len.toNat) :
    stepCount len = 7 + len.toNat / 96 + if len.toNat ≥ 96 then 1 else 0 :=
  if_neg (Nat.not_le.2 h)

/-- The command `c`, started from `b`, has a phase to take, with the flags as START set them (R27). -/
structure InProgress (c : Command) (b u : State) : Prop where
  running : Running c b u
  busy : u.busy = true
  dvalid : u.dvalid = false

section
variable {c : Command} {b u v : State} {x : Phase}

theorem running_of_inPhase (hx : x ≠ .idle) (h : InPhase c b x u) : Running c b u := ⟨x, hx, h⟩

theorem not_running_of_ended (h : Ended c b u) : ¬ Running c b u := by
  rintro ⟨x, hx, hin⟩
  obtain ⟨-, -, -, hidle, -⟩ := h
  exact hx (code_injective (hin.phase.symm.trans hidle))

/-- The step that accepts START opens the command (R150). -/
theorem inProgress_of_start (hb : Ready b) :
    ∃ u, runSteps 1 (b.presentStart c) = .next u ∧ InPhase c b (startPhase c.len) u ∧
      InProgress c b u := by
  have hstart := start_of_ready c b hb
  have hin : InPhase c b (startPhase c.len) _ := (start_answers id).1 _ hstart
  refine ⟨_, ?_, hin, running_of_inPhase (startPhase_ne_idle c.len) hin, rfl, rfl⟩
  rw [runSteps_eq_runOf, runOf_one, stepWith_presentStart, hstart]

/-- A step after which the command still has a phase to take was not its last, and left the flags
alone (R27). -/
theorem inProgress_of_step (h : InProgress c b u) (hv : step u = .next v) (hrun : Running c b v) :
    InProgress c b v := by
  obtain ⟨⟨x, hx, hin⟩, hbusy, hdvalid⟩ := h
  rw [step_phase u x hin.request_eq hin.phase fun hidle => absurd hidle hx] at hv
  have hlast : ¬ IsLast x := fun hlast => not_running_of_ended (ended_of_last hin hlast hv) hrun
  obtain ⟨hbusy', hdvalid'⟩ := flags_of_not_last hin.request_eq hlast hv
  exact ⟨hrun, hbusy'.trans hbusy, hdvalid'.trans hdvalid⟩

/-- On the short path there is a phase to take before the third step (R196). -/
theorem reaches_running_short (hb : Ready b) (hlen : c.len.toNat ≤ 16) (hheld : Held c b) {n : Nat}
    (hpos : 0 < n) (hn : n < 3) : Reaches c b n (Running c b) := by
  have hpath : startPhase c.len = .short := if_pos hlen
  obtain ⟨u, hu, hin, -⟩ := inProgress_of_start (c := c) hb
  have hshort : Reaches c b 1 (InPhase c b .short) := ⟨u, hu, hpath ▸ hin⟩
  have hepis := hshort.stage hheld (Stage.of_inPhase (x := .short) (by decide) shortWith_answers)
  obtain rfl | rfl : n = 1 ∨ n = 2 := by omega
  · exact hshort.mono fun _ => running_of_inPhase (by decide)
  · exact hepis.mono fun _ => running_of_inPhase (afterShort_ne_idle c.op)

/-- On the long path there is a phase to take until the epilogue: INIT, the blocks of 96 bytes, and
the phases from BLK48 on (R126, R196). -/
theorem reaches_running_long (hb : Ready b) (hlen : 16 < c.len.toNat) (hheld : Held c b) {n : Nat}
    (hpos : 0 < n) (hn : n < 7 + c.len.toNat / 96 + if c.len.toNat ≥ 96 then 1 else 0) :
    Reaches c b n (Running c b) := by
  have h48 := reaches_blk48 hb hlen hheld
  have h24 := h48.stage hheld (Stage.of_inPhase (x := .blk48) (by decide) execBlk48_answers)
  have htail := h24.stage hheld (Stage.of_inPhase (x := .blk24) (by decide) execBlk24_answers)
  have hlayerf := htail.stage hheld (Stage.of_inPhase (x := .tail) (by decide) execTail_answers)
  have hepil := hlayerf.stage hheld
    (Stage.of_inPhase (x := .layerf) (by decide) layerfWith_answers)
  generalize hclose : 2 + c.len.toNat / 96 + (if c.len.toNat ≥ 96 then 1 else 0) = d at *
  have hd : d ≤ 2 + c.len.toNat / 96 + 1 := by rw [← hclose]; split_ifs <;> omega
  obtain rfl | ⟨hlo, hhi⟩ | rfl | rfl | rfl | rfl | rfl :
      n = 1 ∨ (2 ≤ n ∧ n ≤ 2 + c.len.toNat / 96) ∨
        n = d ∨ n = d + 1 ∨ n = d + 1 + 1 ∨ n = d + 1 + 1 + 1 ∨ n = d + 1 + 1 + 1 + 1 := by omega
  · exact (reaches_init hb hlen).mono fun _ => running_of_inPhase (by decide)
  · obtain ⟨m, rfl⟩ := Nat.exists_eq_add_of_le hlo
    exact (reaches_blocksLeft hb hlen hheld (by omega)).mono fun _ => running_of_blocksLeft
  · exact h48.mono fun _ => running_of_inPhase (by decide)
  · exact h24.mono fun _ => running_of_inPhase (by decide)
  · exact htail.mono fun _ => running_of_inPhase (by decide)
  · exact hlayerf.mono fun _ => running_of_inPhase (by decide)
  · exact hepil.mono fun _ => running_of_inPhase (afterLayerf_ne_idle c.op)

/-- Before `stepCount` there is a phase to take (R196). -/
theorem reaches_running (hb : Ready b) (hheld : Held c b) {n : Nat} (hpos : 0 < n)
    (hn : n < stepCount c.len) : Reaches c b n (Running c b) := by
  obtain hlen | hlen := le_or_gt c.len.toNat 16
  · exact reaches_running_short hb hlen hheld hpos (stepCount_of_short hlen ▸ hn)
  · exact reaches_running_long hb hlen hheld hpos (stepCount_of_long hlen ▸ hn)

/-- Before `stepCount` the command is in progress, by induction on the steps after START (R197). -/
theorem reaches_inProgress (hb : Ready b) (hheld : Held c b) (n : Nat)
    (hn : n + 1 < stepCount c.len) : Reaches c b (n + 1) (InProgress c b) := by
  induction n with
  | zero =>
    obtain ⟨u, hu, -, hprogress⟩ := inProgress_of_start (c := c) hb
    exact ⟨u, hu, hprogress⟩
  | succ n ih =>
    obtain ⟨u, hu, hprogress⟩ := ih (by omega)
    obtain ⟨v, hv, hrun⟩ := reaches_running hb hheld (n := n + 1 + 1) (Nat.succ_pos _) hn
    refine ⟨v, hv, inProgress_of_step hprogress ?_ hrun⟩
    rw [runSteps_add, hu, andThen_next, runSteps_succ] at hv
    exact (andThen_pure (step u)).symm.trans hv

/-- START and `stepCount` steps end the command, as the transaction does (R157, R158). -/
theorem reaches_ended (hb : Ready b) (hheld : Held c b) :
    Reaches c b (stepCount c.len) (Ended c b) := by
  obtain ⟨t, ht, hended⟩ := transaction_ends Config.consts c.op c.seed c.len b hb hheld
  rw [transaction_eq_runOf, ← runSteps_eq_runOf] at ht
  exact ⟨t, ht, hended⟩

end

/-- Settles O45: the run ends where the transaction ends, and is in progress at every step before. -/
theorem runCompletesInStepCount : Obligations.RunCompletesInStepCount := by
  unfold Obligations.RunCompletesInStepCount
  intro s c hs hheld
  refine ⟨(reaches_ended hs hheld).mono fun t ht => ht.completed, fun k hpos hk => ?_⟩
  obtain ⟨n, rfl⟩ := Nat.exists_eq_add_of_lt hpos
  rw [Nat.zero_add] at hk ⊢
  exact (reaches_inProgress hs hheld n hk).mono fun u hu => ⟨hu.busy, hu.dvalid⟩

end Sys2Proof.Dispatcher

/-! SUPPORT and PROOFS for the statements of spec/60_exceptions.md: which instructions can raise the one
fault. -/

namespace Sys2Proof.Exceptions

open Sys2Proof.Machine Sys2Proof.Laws Sys2Proof.Grains Sys2Proof.Registers

/-! ### START and IDLE -/

/-- START reads no byte: it is accepted or refused (R150, R192). -/
theorem start_ne_fault (c : Command) (s : State) (e : Fault) : start c s ≠ .fault e := by
  intro h
  unfold start at h
  split at h
  · cases h
  · unfold namedPhase at h
    split at h
    · cases h
    · cases h

/-- IDLE takes START or waits, and reads no byte in either case. -/
theorem execIdle_ne_fault (s : State) (e : Fault) : execIdle s ≠ .fault e := by
  by_cases hstart : ∃ c, s.request = .start c
  · obtain ⟨c, hr⟩ := hstart
    rw [execIdle_of_start hr]
    exact start_ne_fault c s e
  · rw [execIdle_of_no_start fun c hr => hstart ⟨c, hr⟩]
    nofun

/-! ### The commands -/

section
variable {op : BitVec 2} {seed len : Word} {s : State} {e : Fault}

/-- A command that faults got past START. -/
theorem ready_of_command_fault (h : exec (commandInstr op seed len) s = .fault e) : Ready s := by
  rw [exec_eq_execWith, execWith_commandInstr, transaction] at h
  cases hstart : start ⟨op, seed, len⟩ s with
  | next t => exact start_next hstart
  | fault e' => exact absurd hstart (start_ne_fault _ s e')
  | refused r =>
    rw [hstart, andThen_refused] at h
    cases h

/-- A command that faults has bytes to read: of no bytes every one is held, and where the message is
held the command completes (R57, R158). -/
theorem len_ne_zero_of_command_fault (h : exec (commandInstr op seed len) s = .fault e) :
    len ≠ 0 := by
  rintro rfl
  have hheld : Holds s.msg 0 (0 : Word).toNat := fun x _ hx => absurd hx (Nat.not_lt_zero x)
  obtain ⟨t, ht, -⟩ :=
    transaction_ends Config.consts op seed 0 s (ready_of_command_fault h) hheld
  rw [exec_eq_execWith, ht] at h
  cases h

end

/-! ### The instructions that fault -/

/-- Settles O37: a command by its length, IDLE by START; the phases and unit functions that read no
byte always answer a next state, and the statement lists the others. -/
theorem onlyReadersFault : Obligations.OnlyReadersFault := by
  unfold Obligations.OnlyReadersFault
  intro i s e h
  cases i with
  | hash64 => simpa using len_ne_zero_of_command_fault (op := 0b00#2) h
  | hash64f => simpa using len_ne_zero_of_command_fault (op := 0b01#2) h
  | hash128 => simpa using len_ne_zero_of_command_fault (op := 0b10#2) h
  | hash128f => simpa using len_ne_zero_of_command_fault (op := 0b11#2) h
  | idle => exact absurd h (execIdle_ne_fault s e)
  | epis64 | epis128 | init | rclose | layerf | epil64 | epil128 => cases h
  | wmul | rotl | rotr | chi => cases h
  | short | blk96 | blk48 | blk24 | tail | rd32 | rd64 | rdshort => simp

end Sys2Proof.Exceptions

/-! SUPPORT and PROOFS for the statements of spec/70_reset_and_hazards.md: the reset event, and what a
command in progress makes the machine refuse. -/

namespace Sys2Proof.Hazards

open Sys2Proof.Machine Sys2Proof.Laws Sys2Proof.Grains Sys2Proof.Programs Sys2Proof.Dispatcher

/-! ### The placing of bytes during a command -/

/-- A placing changes the message when one of its bytes, at an offset below the length, is not the
byte held there (R193, log 12). -/
theorem changesMessage_iff (m : Mem) (len base : Nat) (bs : List Byte) :
    changesMessage m len base bs = true ↔
      ∃ k, k < bs.length ∧ base + k < len ∧ m.byte? (base + k) ≠ bs[k]? := by
  induction bs generalizing base with
  | nil => simp [changesMessage]
  | cons b bs ih =>
    rw [← Nat.or_exists_add_one, changesMessage, Bool.or_eq_true, ih]
    simp [Nat.add_assoc, Nat.add_comm 1]

theorem changesMessage_eq_false_iff (m : Mem) (len base : Nat) (bs : List Byte) :
    changesMessage m len base bs = false ↔
      ∀ k, k < bs.length → base + k < len → m.byte? (base + k) = bs[k]? := by
  rw [← Bool.not_eq_true, changesMessage_iff]
  push Not
  rfl

theorem hostPlace_of_change {s : State} {base : Nat} {bs : List Byte} (hb : s.busy = true)
    (hc : changesMessage s.msg s.len.toNat base bs = true) :
    hostPlace base bs s = .refused .messageChanged :=
  if_pos (Bool.and_eq_true_iff.2 ⟨hb, hc⟩)

/-- A placing that changes no byte of the message is taken, whether a command is in progress or not
(R193, log 12). -/
theorem hostPlace_of_no_change {s : State} {base : Nat} {bs : List Byte}
    (hphase : (Phase.ofCode s.phase).isSome = true)
    (hc : changesMessage s.msg s.len.toNat base bs = false) :
    hostPlace base bs s = .next ({ s with msg := s.msg.writes base bs }.retire) := by
  simp [hostPlace, hc, namedPhase_of_isSome s _ hphase]

/-- A byte placed reads back (R161). -/
theorem byte?_writes_at (m : Mem) {base k : Nat} {bs : List Byte} (hk : k < bs.length)
    (h64 : base + k < 2 ^ 64) : (m.writes base bs).byte? (base + k) = bs[k]? := by
  rw [byte?_writes, if_pos (by omega), Nat.add_sub_cancel_left]

/-- A byte at an offset where none is placed reads as before (R161). -/
theorem byte?_writes_outside (m : Mem) {base x : Nat} {bs : List Byte}
    (hx : x < base ∨ base + bs.length ≤ x ∨ 2 ^ 64 ≤ x) :
    (m.writes base bs).byte? x = m.byte? x := by
  rw [byte?_writes, if_neg (by omega)]

/-- A placing without a change keeps the message: where it writes below `len`, it writes the byte that
is held. -/
theorem byte?_writes_of_no_change {m : Mem} {len base : Nat} {bs : List Byte}
    (hc : changesMessage m len base bs = false) {x : Nat} (hx : x < len) :
    (m.writes base bs).byte? x = m.byte? x := by
  rw [changesMessage_eq_false_iff] at hc
  by_cases hin : base ≤ x ∧ x < base + bs.length ∧ x < 2 ^ 64
  · obtain ⟨hbase, hend, h64⟩ := hin
    obtain ⟨k, rfl⟩ := Nat.exists_eq_add_of_le hbase
    have hk : k < bs.length := by omega
    exact (byte?_writes_at m hk h64).trans (hc k hk hx).symm
  · exact byte?_writes_outside m (by omega)

/-- Settles O36: the check of the placing is the statement's condition, and where it fails the bytes
are written as in O35. -/
theorem messageChangeRefused : Obligations.MessageChangeRefused := by
  unfold Obligations.MessageChangeRefused
  intro s base bs hr hb
  rw [step_place s base bs hr, ← changesMessage_iff, ← changesMessage_eq_false_iff,
    ← ofCode_isSome_iff]
  exact ⟨hostPlace_of_change hb, fun hphase hc => ⟨_, hostPlace_of_no_change hphase hc, rfl,
    fun _ hx => byte?_writes_of_no_change hc hx, fun _ hk h64 => byte?_writes_at s.msg hk h64,
    fun _ hx => byte?_writes_outside s.msg hx⟩⟩

/-! ### The reset event -/

/-- Settles O9: the step is the reset event, whatever else the state holds (R173, R190). -/
theorem resetEventDiscardsCommand : Obligations.ResetEventDiscardsCommand := by
  unfold Obligations.ResetEventDiscardsCommand
  exact fun s hr => ⟨s.resetEvent, step_reset s hr, resetEvent_phase s, resetEvent_busy s,
    resetEvent_dvalid s, resetEvent_msg s⟩

/-! ### A command during a command -/

/-- A command as one transaction goes no further than its START (R192). -/
theorem exec_command_of_busy (op : BitVec 2) (seed len : Word) {s : State} (hb : s.busy = true) :
    exec (commandInstr op seed len) s = .refused .startWhileBusy := by
  rw [exec_eq_execWith, execWith_commandInstr, transaction, start_of_busy _ hb, andThen_refused]

/-- Settles O13: each command is `commandInstr` at its code, and at either grain the refusal is that of
START. -/
theorem commandWhileBusyRefused : Obligations.CommandWhileBusyRefused := by
  unfold Obligations.CommandWhileBusyRefused
  intro s seed len hb
  have hcommand := fun op => exec_command_of_busy op seed len hb
  refine ⟨hcommand 0b00#2, hcommand 0b01#2, hcommand 0b10#2, hcommand 0b11#2, fun op => ?_⟩
  rw [step_start _ _ (presentStart_request s ⟨op, seed, len⟩)]
  exact start_of_busy ⟨op, seed, len⟩ hb

end Sys2Proof.Hazards
